-- ==== Sys2Proof/Word.lean ====
section
/-! DEFINITION. The two widths the engine moves: bytes and 32-bit words (00_scope.md R8, R10). Every value is
unsigned. `+`, `^^^`, `|||`, `<<<` and `>>>` on `BitVec 32` are the operators of 00_scope.md R11: addition is
modulo 2^32 and a left shift is truncated to 32 bits. -/

namespace Sys2Proof

/-- An 8-bit byte of a stream, of BUF or of RESULT. -/
abbrev Byte := BitVec 8

/-- A 32-bit word of CHAIN, of the counter, of the flags or of a header. -/
abbrev Word := BitVec 32

end Sys2Proof
end

