-- ==== Sys2Proof/Machine/Bytes.lean ====
section
/-! DEFINITION. Byte order, the one place where it is decided: every multi-byte value is little-endian
(00_scope.md R12; 20_memory.md R51 to R56). -/

namespace Sys2Proof

/-- LE32 (00_scope.md R12): the first byte is the least significant. -/
def le32 (b0 b1 b2 b3 : Byte) : Word :=
  b0.setWidth 32 ||| b1.setWidth 32 <<< 8 ||| b2.setWidth 32 <<< 16 ||| b3.setWidth 32 <<< 24

/-- Byte `k` of a word, bits [8k+7:8k] (20_memory.md R54). -/
def byteOf (w : Word) (k : Nat) : Byte := w.extractLsb' (8 * k) 8

/-- BYTES_LE of a word (00_scope.md R12). -/
def bytesLE (w : Word) : List Byte := [byteOf w 0, byteOf w 1, byteOf w 2, byteOf w 3]

/-- The word at offset `i` of a byte sequence (20_memory.md R53). Every call has four bytes there. -/
def le32At (bytes : List Byte) (i : Nat) : Word :=
  le32 (bytes.getD i 0) (bytes.getD (i + 1) 0) (bytes.getD (i + 2) 0) (bytes.getD (i + 3) 0)

end Sys2Proof
end

