-- ==== Sys2Proof/Machine/Compression.lean ====
section
/-! DEFINITION. The Compression Engine (41_compression.md R132 to R144): a pure function, no opcode. Its temporaries m and v
are local (10_state.md R29; log 15). -/

namespace Sys2Proof.Machine

/-- Right rotation (00_scope.md R11), for 0 < n < 32. -/
def rotr (x : Word) (n : Nat) : Word := (x >>> n) ||| (x <<< (32 - n))

/-- The mixing function G (41_compression.md R135). -/
def mixG (a b c d x y : Word) : Word × Word × Word × Word :=
  let a := a + b + x
  let d := rotr (d ^^^ a) 16
  let c := c + d
  let b := rotr (b ^^^ c) 12
  let a := a + b + y
  let d := rotr (d ^^^ a) 8
  let c := c + d
  let b := rotr (b ^^^ c) 7
  (a, b, c, d)

/-- One mix: G on four words of the working vector, its results written back to them (R136). -/
def mixAt (v : Vector Word 16) (a b c d : Fin 16) (x y : Word) : Vector Word 16 :=
  let r := mixG v[a] v[b] v[c] v[d] x y
  (((v.set a r.1).set b r.2.1).set c r.2.2.1).set d r.2.2.2

/-- One round under a SIGMA row (R136): four columns, then four diagonals; mix i takes entries 2i and 2i+1. -/
def roundOf (m : Vector Word 16) (v : Vector Word 16) (s : SigmaRow) : Vector Word 16 :=
  let v := mixAt v 0 4 8 12 m[s[0]] m[s[1]]
  let v := mixAt v 1 5 9 13 m[s[2]] m[s[3]]
  let v := mixAt v 2 6 10 14 m[s[4]] m[s[5]]
  let v := mixAt v 3 7 11 15 m[s[6]] m[s[7]]
  let v := mixAt v 0 5 10 15 m[s[8]] m[s[9]]
  let v := mixAt v 1 6 11 12 m[s[10]] m[s[11]]
  let v := mixAt v 2 7 8 13 m[s[12]] m[s[13]]
  mixAt v 3 4 9 14 m[s[14]] m[s[15]]

/-- The message words of a block (R133). -/
def messageWords (block : Vector Byte 64) : Vector Word 16 :=
  Vector.ofFn fun i : Fin 16 =>
    le32 block[4 * i.val] block[4 * i.val + 1] block[4 * i.val + 2] block[4 * i.val + 3]

/-- The working vector before round 0 (R134). -/
def workingVector (h : Vector Word 8) (t0 t1 f0 f1 : Word) : Vector Word 16 :=
  #v[h[0], h[1], h[2], h[3], h[4], h[5], h[6], h[7], iv[0], iv[1], iv[2], iv[3],
     iv[4] ^^^ t0, iv[5] ^^^ t1, iv[6] ^^^ f0, iv[7] ^^^ f1]

/-- The ten rounds, row r of SIGMA in round r (R137). -/
def tenRounds (m v : Vector Word 16) : Vector Word 16 := sigma.toList.foldl (roundOf m) v

/-- Feed-forward, from the input chaining words (R138, R140). -/
def feedForward (h : Vector Word 8) (v : Vector Word 16) : Vector Word 8 :=
  Vector.ofFn fun i : Fin 8 => h[i] ^^^ v[i.val] ^^^ v[i.val + 8]

/-- COMPRESS (R132, R139). -/
@[irreducible] def compress (h : Vector Word 8) (block : Vector Byte 64) (t0 t1 f0 f1 : Word) : Vector Word 8 :=
  feedForward h (tenRounds (messageWords block) (workingVector h t0 t1 f0 f1))

end Sys2Proof.Machine
end

