-- ==== Sys2Proof/Config.lean ====
section
/-! DEFINITION. What is fixed for the engine (00_scope.md R7) and the FREE VALUES: what the spec leaves open. A free
value is an opaque constant with no body, so nothing can be proved about which value it is; a claim that mentions one
holds whatever it is (log 3). Each is applied to a draw number, which State.freeIx supplies, and to no engine
number (DESIGN CHOICE, log 20). -/

namespace Sys2Proof.Config

/-- MAX_DIGEST (00_scope.md R7). -/
abbrev maxDigest : Nat := 32
/-- BLOCK (00_scope.md R7): bytes in a message block and in BUF. -/
abbrev blockLength : Nat := 64
/-- MAX_KEY (00_scope.md R7). -/
abbrev maxKey : Nat := 32
/-- SALT_LEN (00_scope.md R7). -/
abbrev saltLength : Nat := 8
/-- PERS_LEN (00_scope.md R7). -/
abbrev persLength : Nat := 8

/-- Byte `index` of free draw `draw`: bytes the spec calls unspecified (10_state.md R27, R35, R37, R38). -/
opaque freeByte (draw index : Nat) : Byte

/-- Word `index` of free draw `draw`: words the spec calls unspecified (10_state.md R38). -/
opaque freeWord (draw index : Nat) : Word

/-- Number `index` of free draw `draw`: BLEN and DLEN after a reset event (10_state.md R38). -/
opaque freeNat (draw index : Nat) : Nat

/-- Which of several applicable source errors is reported at draw `draw` (60_exceptions.md R226; the parameters
CONFIG_ERROR_ORDER and UPDATE_ERROR_ORDER of 92_eei_decisions.md D18, both taken as "any"; log 6). -/
opaque errorChoice (draw : Nat) : Nat

end Sys2Proof.Config
end

