-- ==== Sys2Proof/Machine/State.lean ====
section
/-! DEFINITION. The engine's state (10_state.md), as plain data, and its value at reset (R38). -/

namespace Sys2Proof.Machine

/-- PHASE (10_state.md R25): three values; the value 3 of the 2-bit register is never written (log 11). -/
inductive Phase where
  /-- 0: no instance exists. -/
  | unconfigured
  /-- 1: an instance absorbs input. -/
  | absorbing
  /-- 2: the digest is cached. -/
  | finished
deriving DecidableEq, Repr

/-- The outcome a command reports by its status byte (30_encoding.md R82). -/
inductive Status where
  | ok
  | invalidDigestLength
  | invalidKeyLength
  | invalidSaltLength
  | invalidPersonalizationLength
  | unexpectedConfigField
  | invalidInputType
  | updateAfterFinalize
  | illegalCommand
  | noInstance
deriving DecidableEq, Repr

/-- A byte of the command stream, with the producer that wrote it. The producer is no hardware state: the engine's
behaviour depends on it only through the model fault FramingViolation (20_memory.md R63; DESIGN CHOICE, log 8). -/
structure StreamByte where
  producer : Nat
  byte : Byte
deriving DecidableEq, Repr

/-- The command parser (10_state.md R30). -/
inductive Parser where
  /-- HEADER: the 0 to 3 header bytes received. -/
  | header (received : List StreamByte)
  /-- PAYLOAD: the complete header and the payload bytes received. -/
  | payload (head received : List StreamByte)
deriving DecidableEq, Repr

/-- The engine's state. -/
structure State where
  /-- CHAIN (10_state.md R20). -/
  chain : Vector Word 8
  /-- BUF (R21). -/
  buf : Vector Byte 64
  /-- BLEN, 0..64 (R22). -/
  blen : Fin 65
  /-- T0, the low word of the byte counter (R23). -/
  t0 : Word
  /-- T1, the high word of the byte counter (R23). -/
  t1 : Word
  /-- F0 (R24). -/
  f0 : Word
  /-- F1 (R24). -/
  f1 : Word
  /-- PHASE (R25). -/
  phase : Phase
  /-- DLEN, 1..32 once configured (R26). -/
  dlen : Fin 33
  /-- RESULT (R27). -/
  result : Vector Byte 32
  /-- The command parser (R30). -/
  parser : Parser
  /-- Bytes of the command stream that the host has written and the engine has not taken (20_memory.md R50). -/
  cmdIn : List StreamByte
  /-- The stream position (R32): the bytes of the commands executed since reset. -/
  pos : Nat
  /-- The response stream, oldest byte first (R31). -/
  out : List Byte
  /-- The model's own: how many free values have been drawn (DESIGN CHOICE, log 3). -/
  freeIx : Nat
deriving DecidableEq, Repr

/-- The model faults (60_exceptions.md R225). A fault ends the run, and no claim covers it. -/
inductive Fault where
  /-- The byte counter would pass 2^64 - 1 (42_update.md R167). Raised by UPDATE and DIGEST. Safe: the spec treats it as a
  fault, never as a value. -/
  | counterOverflow
  /-- The bytes of a command come from more than one producer (20_memory.md R63). Raised by the step. Safe: such runs are
  excluded by the spec. -/
  | framingViolation
deriving DecidableEq, Repr

/-- Reasons for having no meaning. -/
inductive Refusal where
  /-- An instruction that has no meaning yet. Raised by no arm of this model: every instruction is modelled. Safe. -/
  | notModelled (mnemonic : String)
deriving DecidableEq, Repr

/-- Right after reset (10_state.md R38; 70_reset_and_hazards.md R250): PHASE is UNCONFIGURED, the parser is in HEADER with
no byte, the response stream is empty. The spec leaves every other register unspecified; zero is the model's choice
(DESIGN CHOICE, log 1), as are position 0 (log 2), counter 0 (log 3) and an empty command stream (log 7). -/
def State.reset : State where
  chain := Vector.replicate 8 0
  buf := Vector.replicate 64 0
  blen := 0
  t0 := 0
  t1 := 0
  f0 := 0
  f1 := 0
  phase := .unconfigured
  dlen := 0
  result := Vector.replicate 32 0
  parser := .header []
  cmdIn := []
  pos := 0
  out := []
  freeIx := 0

end Sys2Proof.Machine
end

