-- ==== Sys2Proof/Machine/Flags.lean ====
section
/-! DEFINITION. The finalization flags, the byte counter's carry and overflow, and the status codes. The engine has no
condition codes and no status register (10_state.md R33). -/

namespace Sys2Proof.Machine

/-- The flag words of a compression that is not the last (41_compression.md R142). -/
def noFlag : Word := 0x00000000

/-- The last-block flag, F0 of the final compression (43_digest.md R195). -/
def lastBlockFlag : Word := 0xFFFFFFFF

/-- The byte counter T = T1 * 2^32 + T0 (10_state.md R23). -/
def counterValue (t0 t1 : Word) : Nat := t1.toNat * 2 ^ 32 + t0.toNat

/-- Counter addition (42_update.md R167): the sum's low word, the carry into the high word, and none when the exact high
word reaches 2^32. -/
def addCounter (t0 t1 : Word) (n : Nat) : Option (Word × Word) :=
  let s := t0.toNat + n
  let hi := t1.toNat + s / 2 ^ 32
  if hi ≥ 2 ^ 32 then none else some (BitVec.ofNat 32 s, BitVec.ofNat 32 hi)

/-- The status codes (30_encoding.md R82). -/
def statusCode : Status → Byte
  | .ok => 0x00
  | .invalidDigestLength => 0x01
  | .invalidKeyLength => 0x02
  | .invalidSaltLength => 0x03
  | .invalidPersonalizationLength => 0x04
  | .unexpectedConfigField => 0x05
  | .invalidInputType => 0x06
  | .updateAfterFinalize => 0x07
  | .illegalCommand => 0x80
  | .noInstance => 0x81

/-- The encoding of PHASE (10_state.md R25). -/
def phaseCode : Phase → BitVec 2
  | .unconfigured => 0
  | .absorbing => 1
  | .finished => 2

end Sys2Proof.Machine
end

