-- ==== Sys2Proof/Syntax.lean ====
section
/-! DEFINITION. The commands of spec/opcode_table.json as syntax: one constructor a row. A command carries its header
operands and its payload operands (30_encoding.md R72 to R76), never raw header bits. -/

namespace Sys2Proof

/-- ET of an UPDATE header, H[5:4] (30_encoding.md R74). Only `byteSequence` may be absorbed. -/
inductive ElementType where
  /-- 0b00: a byte sequence. -/
  | byteSequence
  /-- 0b01: text. -/
  | text
  /-- 0b10: other non-byte input. -/
  | nonByte2
  /-- 0b11: other non-byte input. -/
  | nonByte3
deriving DecidableEq, Repr

/-- The commands (30_encoding.md R71, R88). -/
inductive Instr where
  /-- CONFIG (40_config.md R100). `dl` is DL. `key` is the key, so KL is its length. `salt` is `none` when SP = 0 and
  otherwise the SL salt bytes; `pers` likewise with PP and PL. `uf` is UF. -/
  | config (dl : BitVec 8) (key : List Byte) (salt pers : Option (List Byte)) (uf : Bool)
  /-- UPDATE (42_update.md R160). `et` is ET and `data` the payload, so LEN is its length. -/
  | update (et : ElementType) (data : List Byte)
  /-- DIGEST (43_digest.md R190). -/
  | digest
deriving DecidableEq, Repr

/-- Why a header is no command (30_encoding.md R77, R78). -/
inductive Illegal where
  /-- OPC is 0x0 or 0x4..0xF (R77). -/
  | reservedOpcode
  /-- CONFIG with RSV = 1 (R78). -/
  | configReservedBit
  /-- CONFIG with SP = 0 and SL != 0 (R78). -/
  | saltLengthWithoutSalt
  /-- CONFIG with PP = 0 and PL != 0 (R78). -/
  | persLengthWithoutPers
  /-- DIGEST with H[31:4] != 0 (R78). -/
  | digestReservedBits
deriving DecidableEq, Repr

end Sys2Proof
end

