-- ==== Sys2Proof/Machine/Operands.lean ====
section
/-! DEFINITION. The forms in which operands are read: a 64-byte block of the payload, the bytes of CHAIN, the parameter word,
salt, personalization and key block of CONFIG. -/

namespace Sys2Proof.Machine

/-- The 64-byte block at the head of a byte sequence, and zeros past its end (40_config.md R111; 42_update.md R164). -/
@[irreducible] def blockOf (bytes : List Byte) : Vector Byte 64 := Vector.ofFn fun i : Fin 64 => bytes.getD i.val 0

/-- BYTES_LE(CHAIN): byte 4j + k is byte k of CHAIN[j] (20_memory.md R54). -/
@[irreducible] def chainBytes (h : Vector Word 8) : Vector Byte 32 :=
  Vector.ofFn fun i : Fin 32 => byteOf (h[i.val / 4]'(by omega)) (i.val % 4)

/-- The parameter word LE32(DL, KL, 1, 1) (40_config.md R107). -/
def parameterWord (dl : BitVec 8) (key : List Byte) : Word := le32 dl (BitVec.ofNat 8 key.length) 1 1

/-- Salt into words 4 and 5 (40_config.md R109). -/
def xorSalt (h : Vector Word 8) : Option (List Byte) → Vector Word 8
  | none => h
  | some salt => (h.set 4 (h[4] ^^^ le32At salt 0)).set 5 (h[5] ^^^ le32At salt 4)

/-- Personalization into words 6 and 7 (40_config.md R110). -/
def xorPers (h : Vector Word 8) : Option (List Byte) → Vector Word 8
  | none => h
  | some pers => (h.set 6 (h[6] ^^^ le32At pers 0)).set 7 (h[7] ^^^ le32At pers 4)

/-- init_chain (40_config.md R108): IV, the parameter word, salt and personalization. -/
def initChain (dl : BitVec 8) (key : List Byte) (salt pers : Option (List Byte)) : Vector Word 8 :=
  xorPers (xorSalt (iv.set 0 (iv[0] ^^^ parameterWord dl key)) salt) pers

/-- BLEN after CONFIG: the key block fills BUF when there is a key; KL = 0 means no key (40_config.md R111). -/
def keyBlockLength (key : List Byte) : Fin 65 := if key.length > 0 then 64 else 0

/-- The errors of the source that a CONFIG has (40_config.md R101 to R105). -/
def configErrors (dl : BitVec 8) (key : List Byte) (salt pers : Option (List Byte)) (uf : Bool) : List Status :=
  (if dl.toNat < 1 ∨ dl.toNat > Config.maxDigest then [.invalidDigestLength] else [])
    ++ (if key.length > Config.maxKey then [.invalidKeyLength] else [])
    ++ (match salt with
        | none => []
        | some b => if b.length ≠ Config.saltLength then [.invalidSaltLength] else [])
    ++ (match pers with
        | none => []
        | some b => if b.length ≠ Config.persLength then [.invalidPersonalizationLength] else [])
    ++ (if uf then [.unexpectedConfigField] else [])

/-- The errors of the source that an UPDATE has once an instance exists (42_update.md R161). -/
def updateErrors (et : ElementType) (phase : Phase) : List Status :=
  (if et ≠ .byteSequence then [.invalidInputType] else [])
    ++ (if phase = .finished then [.updateAfterFinalize] else [])

end Sys2Proof.Machine
end

