-- ==== Sys2Proof/Machine/Ops.lean ====
section
/-! DEFINITION. The named operations over the state: responses, errors, stream bytes, free draws, BUF, compression. -/

namespace Sys2Proof.Machine

/-- Continue after an outcome that goes on. -/
def andThen {α β : Type} (o : Host.Outcome α Fault Refusal) (k : α → Host.Outcome β Fault Refusal) :
    Host.Outcome β Fault Refusal :=
  match o with
  | .next a => k a
  | .fault r => .fault r
  | .refused r => .refused r

/-! ### Responses and errors -/

/-- emit (00_scope.md R13): append bytes to the response stream. -/
def State.emit (s : State) (bytes : List Byte) : State := { s with out := s.out ++ bytes }

/-- raise (00_scope.md R13; 60_exceptions.md R220, R227, R228): the engine's one form of an exception. The status byte is its
whole effect: no register changes, nothing is saved and there is nothing to return to. -/
def raise (e : Status) (s : State) : Host.Outcome State Fault Refusal := .next (s.emit [statusCode e])

/-- Advance the free-value counter past the draw just used (log 3). -/
def State.draw (s : State) : State := { s with freeIx := s.freeIx + 1 }

/-- The error that the free value `k` picks among those that apply (60_exceptions.md R226, R222). -/
def pickError (first : Status) (others : List Status) (k : Nat) : Status :=
  (first :: others).getD (k % (others.length + 1)) first

/-- raise one_of(E) for a set of source errors that is not empty (60_exceptions.md R226; log 6). One error is raised as it
is; among several, a free value chooses. Two engines at the same draw number choose alike (DESIGN CHOICE, unsafe, log 20). -/
def raiseOneOf (first : Status) (others : List Status) (s : State) : Host.Outcome State Fault Refusal :=
  match others with
  | [] => raise first s
  | _ :: _ => raise (pickError first others (Config.errorChoice s.freeIx)) s.draw

/-! ### The command stream -/

/-- The bytes of a whole command have been taken: the parser is back in HEADER with no byte, `rest` stays on the stream, and
the position advances by the command's length (10_state.md R30, R32). -/
def State.consume (s : State) (n : Nat) (rest : List StreamByte) : State :=
  { s with parser := .header [], cmdIn := rest, pos := s.pos + n }

/-- The parser holds every byte that has arrived (10_state.md R30). -/
def State.hold (s : State) (p : Parser) : State := { s with parser := p, cmdIn := [] }

/-! ### BUF -/

/-- Write bytes to BUF from an offset on (00_scope.md R13, MemWrite; 42_update.md R163, R165). -/
@[irreducible] def bufWrite (buf : Vector Byte 64) (start : Nat) (bytes : List Byte) : Vector Byte 64 :=
  Vector.ofFn fun i : Fin 64 =>
    if start ≤ i.val ∧ i.val < start + bytes.length then bytes.getD (i.val - start) 0 else buf[i]

/-- Zero padding: BUF[i] is 0 from `len` on (43_digest.md R193). -/
@[irreducible] def bufZeroFrom (buf : Vector Byte 64) (len : Nat) : Vector Byte 64 :=
  Vector.ofFn fun i : Fin 64 => if i.val < len then buf[i] else 0

/-- The bytes of BUF from `len` on are unspecified (10_state.md R35, R37): free values (log 4). -/
@[irreducible] def bufFreeFrom (buf : Vector Byte 64) (len draw : Nat) : Vector Byte 64 :=
  Vector.ofFn fun i : Fin 64 => if i.val < len then buf[i] else Config.freeByte draw i.val

/-! ### Compression -/

/-- Count `n` bytes, then compress a block with the new counter (42_update.md R167, R168): CHAIN, T0 and T1 are written, or
the counter overflows. -/
def compressBlock (block : Vector Byte 64) (n : Nat) (f0 f1 : Word) (s : State) : Host.Outcome State Fault Refusal :=
  match addCounter s.t0 s.t1 n with
  | none => .fault .counterOverflow
  | some (t0, t1) => .next { s with t0 := t0, t1 := t1, chain := compress s.chain block t0 t1 f0 f1 }

/-! ### Instances -/

/-- A new instance (40_config.md R100, R108 to R112). RESULT keeps its old value. -/
def State.startInstance (s : State) (dl : BitVec 8) (key : List Byte) (salt pers : Option (List Byte)) : State :=
  { s with
    chain := initChain dl key salt pers
    buf := blockOf key
    blen := keyBlockLength key
    t0 := 0
    t1 := 0
    f0 := noFlag
    f1 := noFlag
    dlen := Fin.ofNat 33 dl.toNat
    phase := .absorbing }

/-- The digest bytes RESULT[0..DLEN-1] (43_digest.md R199). -/
def digestBytes (s : State) : List Byte := s.result.toList.take s.dlen.val

end Sys2Proof.Machine
end

