-- ==== Sys2Proof/Machine/ConfigCommand.lean ====
section
/-! DEFINITION. CONFIG (40_config.md R100 to R116). -/

namespace Sys2Proof.Machine

/-- CONFIG (40_config.md R100): legal in every phase (R113); a failed one changes no register (R106). -/
def execConfig (dl : BitVec 8) (key : List Byte) (salt pers : Option (List Byte)) (uf : Bool) (s : State) :
    Host.Outcome State Fault Refusal :=
  match configErrors dl key salt pers uf with
  | [] => .next ((s.startInstance dl key salt pers).emit [statusCode .ok])
  | e :: others => raiseOneOf e others s

end Sys2Proof.Machine
end

