-- ==== Sys2Proof/Machine/DigestCommand.lean ====
section
/-! DEFINITION. DIGEST and finalization (43_digest.md R190 to R203). -/

namespace Sys2Proof.Machine

/-- RESULT after finalization (43_digest.md R197): the first `len` bytes of BYTES_LE(CHAIN); the bytes past them are unspecified
(10_state.md R27; log 5). -/
@[irreducible] def resultOf (h : Vector Word 8) (len draw : Nat) : Vector Byte 32 :=
  Vector.ofFn fun j : Fin 32 => if j.val < len then (chainBytes h)[j] else Config.freeByte draw j.val

/-- Finalization (43_digest.md R193 to R198): zero padding, final counter, last-block flag, final compression, extraction. -/
def finalize (s : State) : Host.Outcome State Fault Refusal :=
  let padded := { s with buf := bufZeroFrom s.buf s.blen.val, f0 := lastBlockFlag }
  andThen (compressBlock padded.buf s.blen.val padded.f0 padded.f1 padded) fun t =>
    .next { t with result := resultOf t.chain t.dlen.val t.freeIx, phase := .finished, freeIx := t.freeIx + 1 }

/-- DIGEST (43_digest.md R190). -/
def execDigest (s : State) : Host.Outcome State Fault Refusal :=
  match s.phase with
  | .unconfigured => raise .noInstance s
  | .finished => .next (s.emit (statusCode .ok :: digestBytes s))
  | .absorbing => andThen (finalize s) fun t => .next (t.emit (statusCode .ok :: digestBytes t))

end Sys2Proof.Machine
end

