-- ==== Sys2Proof/Machine/UpdateCommand.lean ====
section
/-! DEFINITION. UPDATE and the Streaming Controller (42_update.md R160 to R175). -/

namespace Sys2Proof.Machine

/-- Top-up (42_update.md R163): BUF is filled from the payload and compressed, and BLEN becomes 0. -/
def topUp (data : List Byte) (s : State) : Host.Outcome State Fault Refusal :=
  let full := bufWrite s.buf s.blen.val data
  andThen (compressBlock full 64 noFlag noFlag s) fun t => .next { t with buf := full, blen := 0 }

/-- Bulk blocks (42_update.md R164): while more than 64 payload bytes remain, the next 64 are compressed. Answers what remains.
`fuel` bounds the loop; the payload's length is always enough. -/
def drainBlocks : Nat → List Byte → State → Host.Outcome (State × List Byte) Fault Refusal
  | 0, data, s => .next (s, data)
  | fuel + 1, data, s =>
    if data.length > 64 then
      andThen (compressBlock (blockOf data) 64 noFlag noFlag s) fun t => drainBlocks fuel (data.drop 64) t
    else .next (s, data)

/-- Remainder (42_update.md R165): the last bytes go to BUF and stay there (R166). The bytes of BUF past them are unspecified
(10_state.md R35, R37; log 4). -/
def holdBack (data : List Byte) (s : State) : State :=
  { s with
    buf := bufFreeFrom (bufWrite s.buf s.blen.val data) (s.blen.val + data.length) s.freeIx
    blen := Fin.ofNat 65 (s.blen.val + data.length)
    freeIx := s.freeIx + 1 }

/-- Absorb a payload that is not empty (42_update.md R160). -/
def absorb (data : List Byte) (s : State) : Host.Outcome State Fault Refusal :=
  let left := 64 - s.blen.val
  if data.length > left then
    andThen (topUp (data.take left) s) fun t =>
      andThen (drainBlocks data.length (data.drop left) t) fun r => .next (holdBack r.2 r.1)
  else .next (holdBack data s)

/-- UPDATE (42_update.md R160): the checks of R161 in their order, then the no-op of R162, then the streaming controller. -/
def execUpdate (et : ElementType) (data : List Byte) (s : State) : Host.Outcome State Fault Refusal :=
  if s.phase = .unconfigured then raise .noInstance s
  else
    match updateErrors et s.phase with
    | e :: others => raiseOneOf e others s
    | [] =>
      if data.length = 0 then .next (s.emit [statusCode .ok])
      else andThen (absorb data s) fun t => .next (t.emit [statusCode .ok])

end Sys2Proof.Machine
end

