-- ==== Sys2Proof/Machine/Dispatch.lean ====
section
/-! DEFINITION. One arm a command: the meaning of each (30_encoding.md R88). -/

namespace Sys2Proof.Machine

def exec (i : Instr) (s : State) : Host.Outcome State Fault Refusal :=
  match i with
  | .config dl key salt pers uf => Sys2Proof.Machine.execConfig dl key salt pers uf s
  | .update et data => Sys2Proof.Machine.execUpdate et data s
  | .digest => Sys2Proof.Machine.execDigest s

end Sys2Proof.Machine
end

