-- ==== Sys2Proof/WellFormed.lean ====
section
/-! DEFINITION. Which command terms have an encoding: every length fits its header field (30_encoding.md R72, R74;
00_scope.md R9). A length that fits its field but not its legal range (DL = 33, a salt of 7 bytes) is well formed: such
a command reaches the engine and raises the source's error. -/

namespace Sys2Proof

/-- KL is 8 bits wide. -/
def keyFits (key : List Byte) : Bool := decide (key.length < 2 ^ 8)

/-- SL and PL are 4 bits wide. -/
def fieldFits (bytes : Option (List Byte)) : Bool :=
  match bytes with
  | none => true
  | some b => decide (b.length < 2 ^ 4)

/-- LEN is 26 bits wide. -/
def dataFits (data : List Byte) : Bool := decide (data.length < 2 ^ 26)

/-- The command has an encoding. -/
def Instr.wf : Instr → Bool
  | .config _ key salt pers _ => keyFits key && fieldFits salt && fieldFits pers
  | .update _ data => dataFits data
  | .digest => true

end Sys2Proof
end

