-- ==== Sys2Proof/Decode.lean ====
section
/-! DEFINITION. Command decoding and encoding (30_encoding.md R70 to R84, R88). The length of a command depends on its
header alone; decoding is total on any bytes and rejects by name. -/

namespace Sys2Proof

/-! ### The header fields (30_encoding.md R80): unsigned, no scaling -/

/-- OPC = H[3:0]. -/
def hdrOPC (h : Word) : BitVec 4 := h.extractLsb' 0 4
/-- DL = H[11:4]. -/
def hdrDL (h : Word) : BitVec 8 := h.extractLsb' 4 8
/-- KL = H[19:12]. -/
def hdrKL (h : Word) : BitVec 8 := h.extractLsb' 12 8
/-- SP = H[20]. -/
def hdrSP (h : Word) : Bool := h.getLsbD 20
/-- PP = H[21]. -/
def hdrPP (h : Word) : Bool := h.getLsbD 21
/-- SL = H[25:22]. -/
def hdrSL (h : Word) : BitVec 4 := h.extractLsb' 22 4
/-- PL = H[29:26]. -/
def hdrPL (h : Word) : BitVec 4 := h.extractLsb' 26 4
/-- UF = H[30]. -/
def hdrUF (h : Word) : Bool := h.getLsbD 30
/-- RSV = H[31]. -/
def hdrRSV (h : Word) : Bool := h.getLsbD 31
/-- ET = H[5:4]. -/
def hdrET (h : Word) : BitVec 2 := h.extractLsb' 4 2
/-- LEN = H[31:6]. -/
def hdrLEN (h : Word) : BitVec 26 := h.extractLsb' 6 26

/-- payload_length (30_encoding.md R83): from the header alone, legal or not. -/
def payloadLength (h : Word) : Nat :=
  match (hdrOPC h).toNat with
  | 1 => (hdrKL h).toNat + (hdrSP h).toNat * (hdrSL h).toNat + (hdrPP h).toNat * (hdrPL h).toNat
  | 2 => (hdrLEN h).toNat
  | _ => 0

/-- total_length (30_encoding.md R83). -/
def totalLength (h : Word) : Nat := 4 + payloadLength h

/-- What a header announces. -/
inductive HeaderKind where
  | config
  | update
  | digest
  | illegal (why : Illegal)
deriving DecidableEq, Repr

/-- decode of a header (30_encoding.md R84): total, and every header falls in exactly one case. -/
def headerKind (h : Word) : HeaderKind :=
  match (hdrOPC h).toNat with
  | 1 =>
    if hdrRSV h then .illegal .configReservedBit
    else if !hdrSP h && hdrSL h != 0 then .illegal .saltLengthWithoutSalt
    else if !hdrPP h && hdrPL h != 0 then .illegal .persLengthWithoutPers
    else .config
  | 2 => .update
  | 3 => if h.extractLsb' 4 28 != 0 then .illegal .digestReservedBits else .digest
  | _ => .illegal .reservedOpcode

/-- The element type a value of ET stands for (30_encoding.md R74). -/
def elementTypeOf (et : BitVec 2) : ElementType :=
  match et.toNat with
  | 0 => .byteSequence
  | 1 => .text
  | 2 => .nonByte2
  | _ => .nonByte3

/-- The payload operands of CONFIG (30_encoding.md R73): key, then salt, then personalization, with nothing between. -/
def configOperands (h : Word) (p : List Byte) : Instr :=
  let kl := (hdrKL h).toNat
  let sl := (hdrSP h).toNat * (hdrSL h).toNat
  .config (hdrDL h) (p.take kl)
    (if hdrSP h then some ((p.drop kl).take (hdrSL h).toNat) else none)
    (if hdrPP h then some ((p.drop (kl + sl)).take (hdrPL h).toNat) else none)
    (hdrUF h)

/-- What the bytes at the head of the command stream are. -/
inductive Decoded where
  /-- A whole command, and the bytes after it. -/
  | command (i : Instr) (rest : List Byte)
  /-- A whole illegal command (30_encoding.md R77, R78), and the bytes after it. -/
  | illegal (why : Illegal) (rest : List Byte)
  /-- Not all bytes of the command have arrived (30_encoding.md R70). -/
  | incomplete
deriving DecidableEq, Repr

/-- The command a whole header and its whole payload make. -/
def decodeFrame (h : Word) (p rest : List Byte) : Decoded :=
  match headerKind h with
  | .config => .command (configOperands h p) rest
  | .update => .command (.update (elementTypeOf (hdrET h)) p) rest
  | .digest => .command .digest rest
  | .illegal why => .illegal why rest

/-- The decoder (30_encoding.md R70): the header, then the payload the header announces. -/
def decode (bytes : List Byte) : Decoded :=
  match bytes with
  | b0 :: b1 :: b2 :: b3 :: after =>
    let h := le32 b0 b1 b2 b3
    let n := payloadLength h
    if after.length < n then .incomplete else decodeFrame h (after.take n) (after.drop n)
  | _ => .incomplete

/-- How many bytes the command at the head of the stream takes; 4 while its header is not complete. -/
def frameLength (bytes : List Byte) : Nat :=
  match bytes with
  | b0 :: b1 :: b2 :: b3 :: _ => totalLength (le32 b0 b1 b2 b3)
  | _ => 4

/-! ### Encoding -/

/-- One header bit. -/
def bit (b : Bool) : BitVec 1 := BitVec.ofBool b

/-- The value of ET (30_encoding.md R74). -/
def elementTypeBits : ElementType → BitVec 2
  | .byteSequence => 0#2
  | .text => 1#2
  | .nonByte2 => 2#2
  | .nonByte3 => 3#2

/-- A length field of `w` bits. A length that does not fit, which a well-formed command never has, loses its upper bits (DESIGN CHOICE,
log 23). -/
def lengthField (w : Nat) (bytes : List Byte) : BitVec w := BitVec.ofNat w bytes.length

/-- The CONFIG header, bit 31 first: 0UPPPPSSSSpsKKKKKKKKDDDDDDDD0001 (30_encoding.md R72). -/
def configHeader (dl : BitVec 8) (key : List Byte) (salt pers : Option (List Byte)) (uf : Bool) : Word :=
  0#1 ++ bit uf ++ lengthField 4 (pers.getD []) ++ lengthField 4 (salt.getD []) ++ bit pers.isSome ++ bit salt.isSome
    ++ lengthField 8 key ++ dl ++ 1#4

/-- The UPDATE header, bit 31 first: LLLLLLLLLLLLLLLLLLLLLLLLLLEE0010 (30_encoding.md R74). -/
def updateHeader (et : ElementType) (data : List Byte) : Word := lengthField 26 data ++ elementTypeBits et ++ 2#4

/-- The header of a command. -/
def headerOf : Instr → Word
  | .config dl key salt pers uf => configHeader dl key salt pers uf
  | .update et data => updateHeader et data
  | .digest => 3#32

/-- The payload of a command (30_encoding.md R73, R75, R76). -/
def payloadOf : Instr → List Byte
  | .config _ key salt pers _ => key ++ salt.getD [] ++ pers.getD []
  | .update _ data => data
  | .digest => []

/-- The bytes of a command, in stream order (30_encoding.md R70; 20_memory.md R55). -/
def encode (i : Instr) : List Byte := bytesLE (headerOf i) ++ payloadOf i

/-! ### Words of the opcode table -/

/-- The bytes of the command whose low `nbits` bits are `w`, numbered as spec/opcode_table.json numbers them: the header's
bytes, first byte least significant, and a payload of zeros as long as the header announces. -/
def tableBytes (nbits w : Nat) : List Byte :=
  let hdr := bytesLE (BitVec.ofNat 32 (w % 2 ^ nbits))
  hdr ++ List.replicate (frameLength hdr - 4) 0

/-- The instruction the decoder reads from an instruction whose bits are `w`; none where it refuses. -/
def decodeTableWord (nbits w : Nat) : Option Instr :=
  match decode (tableBytes nbits w) with
  | .command i _ => some i
  | .illegal _ _ => none
  | .incomplete => none

end Sys2Proof
end

