-- ==== Sys2Proof/Machine/Fetch.lean ====
section
/-! DEFINITION. Taking the next command from the stream (30_encoding.md R70; 10_state.md R30; 20_memory.md R63). -/

namespace Sys2Proof.Machine

/-- The bytes the parser has received, in stream order. -/
def parserBytes : Parser → List StreamByte
  | .header received => received
  | .payload head received => head ++ received

/-- The parser that has received these bytes of an incomplete command (10_state.md R30). -/
def parserHolding (bytes : List StreamByte) : Parser :=
  if bytes.length < 4 then .header bytes else .payload (bytes.take 4) (bytes.drop 4)

/-- The plain bytes of a stretch of the stream. -/
def plainBytes (bytes : List StreamByte) : List Byte := bytes.map StreamByte.byte

/-- Bytes as one producer writes them. -/
def tagged (producer : Nat) (bytes : List Byte) : List StreamByte :=
  bytes.map fun b => { producer := producer, byte := b }

/-- All the bytes come from one producer (20_memory.md R63; log 8). -/
def oneProducer (bytes : List StreamByte) : Bool :=
  match bytes with
  | [] => true
  | b :: others => others.all fun c => c.producer == b.producer

/-- What is at the head of the stream. -/
inductive Fetched where
  /-- The bytes of the command come from more than one producer. -/
  | torn
  /-- The command is incomplete; the parser holds these bytes. -/
  | wait (held : Parser)
  /-- An illegal command of `len` bytes, and the stream after it. -/
  | illegal (why : Illegal) (len : Nat) (rest : List StreamByte)
  /-- A command of `len` bytes, and the stream after it. -/
  | command (i : Instr) (len : Nat) (rest : List StreamByte)
deriving DecidableEq, Repr

/-- Read the command at the head of the bytes that have arrived. -/
def fetch (arrived : List StreamByte) : Fetched :=
  let len := frameLength (plainBytes arrived)
  if oneProducer (arrived.take len) then
    match decode (plainBytes arrived) with
    | .command i _ => .command i len (arrived.drop len)
    | .illegal why _ => .illegal why len (arrived.drop len)
    | .incomplete => .wait (parserHolding arrived)
  else .torn

end Sys2Proof.Machine
end

