-- ==== Sys2Proof/Machine/Step.lean ====
section
/-! DEFINITION. One step of the engine: one command (00_scope.md R14; 20_memory.md R60). -/

namespace Sys2Proof.Machine

/-- A step takes the command at the head of the stream and executes it. An illegal command raises IllegalCommand before any
other error (30_encoding.md R77, R78; 60_exceptions.md R226). While the command is incomplete the parser takes what has arrived and
the engine waits, with no timeout (70_reset_and_hazards.md R254; log 9). Bytes of two producers inside a command are the model fault
FramingViolation (20_memory.md R63). -/
def step (s : State) : Host.Outcome State Fault Refusal :=
  match fetch (parserBytes s.parser ++ s.cmdIn) with
  | .torn => .fault .framingViolation
  | .wait held => .next (s.hold held)
  | .illegal _ len rest => raise .illegalCommand (s.consume len rest)
  | .command i len rest => exec i (s.consume len rest)

/-- `s` with the command whose low `nbits` bits are `w`, and a payload of zeros, at the head of its command stream, the parser
waiting for a header (DESIGN CHOICE, log 13). -/
def State.withFetchWord (s : State) (nbits w : Nat) : State :=
  { s with
    parser := .header []
    cmdIn := tagged 0 (tableBytes nbits w) ++ s.cmdIn }

end Sys2Proof.Machine
end

