-- ==== Sys2Proof/Machine/System.lean ====
section
/-! DEFINITION. Several engines (20_memory.md R64; 60_exceptions.md R232). Their number is the parameter N_ENGINES of
92_eei_decisions.md D33, here the argument `n`; they share only the constant tables (log 14). -/

namespace Sys2Proof.Machine

/-- Engine `k` of a system takes one step. Two points are the model's choice, not the spec's. A fault of engine `k` ends the run of the
whole system (DESIGN CHOICE, log 21). The free values take no engine number, so two engines at the same draw number draw the same ones
(DESIGN CHOICE, unsafe, log 20). -/
def systemStep {n : Nat} (engines : Vector State n) (k : Fin n) : Host.Outcome (Vector State n) Fault Refusal :=
  andThen (step engines[k]) fun s => .next (engines.set k s)

end Sys2Proof.Machine
end

