-- ==== Sys2Proof/Machine/HostPort.lean ====
section
/-! DEFINITION. What the outside world does to the engine between two steps: it writes command bytes, reads response bytes and
resets; and the host-side conventions of 30_encoding.md R86 and 43_digest.md R200, which run outside the engine (log 18). -/

namespace Sys2Proof.Machine

/-- A producer appends bytes to the command stream (20_memory.md R50). -/
def hostWrite (producer : Nat) (bytes : List Byte) (s : State) : State :=
  { s with cmdIn := s.cmdIn ++ tagged producer bytes }

/-- The host takes the oldest `n` response bytes (10_state.md R31). -/
def hostRead (n : Nat) (s : State) : List Byte × State := (s.out.take n, { s with out := s.out.drop n })

/-- The reset event (70_reset_and_hazards.md R250). The registers it leaves unspecified hold free values. How many of the bytes on the
command stream had reached the parser, and are discarded with it, is open: a free number of them (log 7). -/
def resetEvent (s : State) : State :=
  { chain := Vector.ofFn fun i : Fin 8 => Config.freeWord s.freeIx i.val
    buf := Vector.ofFn fun i : Fin 64 => Config.freeByte s.freeIx i.val
    blen := Fin.ofNat 65 (Config.freeNat s.freeIx 0)
    t0 := Config.freeWord s.freeIx 8
    t1 := Config.freeWord s.freeIx 9
    f0 := Config.freeWord s.freeIx 10
    f1 := Config.freeWord s.freeIx 11
    phase := .unconfigured
    dlen := Fin.ofNat 33 (Config.freeNat s.freeIx 1)
    result := Vector.ofFn fun i : Fin 32 => Config.freeByte s.freeIx (64 + i.val)
    parser := .header []
    cmdIn := s.cmdIn.drop (Config.freeNat s.freeIx 2)
    pos := s.pos
    out := []
    freeIx := s.freeIx + 1 }

/-! ### Host-side conventions -/

/-- `new` (30_encoding.md R86): an omitted digest length is 32; `other` says that the configuration has a field other than key,
salt and personalization. The spec does not say what the host sends for a key of more than 255 bytes, a salt or personalization of more
than 15 or a digest length above 255. The first three give a term that is not well formed, and the last cannot be written here
(DESIGN CHOICE, log 23). -/
def hostNew (digestLength : Option (BitVec 8)) (key : List Byte) (salt pers : Option (List Byte)) (other : Bool) : Instr :=
  .config (digestLength.getD 32) key salt pers other

/-- The most bytes one UPDATE carries (30_encoding.md R74). -/
def maxChunk : Nat := 2 ^ 26 - 1

/-- A payload cut into pieces of at most `maxChunk` bytes; at least one piece. `fuel` bounds the loop. -/
def splitPayload : Nat → List Byte → List (List Byte)
  | 0, bytes => [bytes]
  | fuel + 1, bytes =>
    if bytes.length ≤ maxChunk then [bytes] else bytes.take maxChunk :: splitPayload fuel (bytes.drop maxChunk)

/-- `update` of a byte sequence (30_encoding.md R86): the selected bytes, in order, in one or more commands. The check of `offset` and
`length` is the host's (91_not_in_source.md N12); this host makes none, and a range past the end of the array selects the bytes there
are (DESIGN CHOICE, log 22). -/
def hostUpdate (bytes : List Byte) (offset length : Nat) : List Instr :=
  (splitPayload bytes.length ((bytes.drop offset).take length)).map (.update .byteSequence)

/-- `update` of text (30_encoding.md R86). -/
def hostUpdateText : Instr := .update .text []

/-- A lowercase hexadecimal digit (43_digest.md R200). -/
def hexDigit (n : Nat) : Char :=
  ['0', '1', '2', '3', '4', '5', '6', '7', '8', '9', 'a', 'b', 'c', 'd', 'e', 'f'].getD n '0'

/-- The hex rendering of a digest (43_digest.md R200): two characters a byte, the more significant nibble first. -/
def hexDigest (digest : List Byte) : List Char :=
  digest.flatMap fun b => [hexDigit (b.toNat / 16), hexDigit (b.toNat % 16)]

end Sys2Proof.Machine
end

