-- ==== Sys2Proof/Safety.lean ====
section
/-! DEFINITION. The terms in which claims are made: runs of commands, the invariant of the engine, what of a state is
specified, and the hash as a function of its inputs. -/

namespace Sys2Proof.Machine

/-! ### Runs -/

/-- Commands executed one after another (20_memory.md R60), ending at the first fault or refusal. -/
def execAll : List Instr → State → Host.Outcome State Fault Refusal
  | [], s => .next s
  | i :: is, s => andThen (exec i s) (execAll is)

/-- Commands as one producer's bytes on the stream. -/
def streamOf (producer : Nat) (is : List Instr) : List StreamByte := tagged producer (is.flatMap encode)

/-- The bytes of the stream that the engine has not executed: those the parser holds, then those it has not taken. -/
def State.arrived (s : State) : List StreamByte := parserBytes s.parser ++ s.cmdIn

/-- UPDATE commands that carry byte sequences. -/
def updates (chunks : List (List Byte)) : List Instr := chunks.map (.update .byteSequence)

/-! ### The invariant -/

/-- The byte counter of a state. -/
def State.counter (s : State) : Nat := counterValue s.t0 s.t1

/-- The valid prefix of BUF (10_state.md R22, R35). -/
def State.buffered (s : State) : List Byte := s.buf.toList.take s.blen.val

/-- The parser holds less than a whole command, from one producer (10_state.md R30). -/
def ParserInv (p : Parser) : Prop :=
  oneProducer (parserBytes p) = true ∧
  match p with
  | .header received => received.length < 4
  | .payload head received =>
    head.length = 4 ∧ 4 + received.length < frameLength (plainBytes head)

/-- While absorbing (10_state.md R35, R26): no flag is set, T counts whole blocks, BUF is empty only if nothing was absorbed, and
DLEN is legal. -/
def AbsorbingInv (s : State) : Prop :=
  s.f0 = noFlag ∧ s.f1 = noFlag ∧ s.counter % 64 = 0 ∧ (s.blen.val = 0 → s.counter = 0) ∧ 1 ≤ s.dlen.val

/-- Once finished (10_state.md R36, R26): the last-block flag is set, BUF is padded with zeros, RESULT holds the digest, T ends where
BUF does, and DLEN is legal. -/
def FinishedInv (s : State) : Prop :=
  s.f0 = lastBlockFlag ∧ s.f1 = noFlag ∧ (∀ i : Fin 64, s.blen.val ≤ i.val → s.buf[i] = 0) ∧
  (∀ j : Fin 32, j.val < s.dlen.val → s.result[j] = (chainBytes s.chain)[j]) ∧
  s.counter % 64 = s.blen.val % 64 ∧ (s.blen.val = 0 → s.counter = 0) ∧ 1 ≤ s.dlen.val

/-- The invariant between commands (10_state.md R35, R36). In phase UNCONFIGURED the registers are unconstrained (R38). -/
def State.Inv (s : State) : Prop :=
  ParserInv s.parser ∧
  match s.phase with
  | .unconfigured => True
  | .absorbing => AbsorbingInv s
  | .finished => FinishedInv s

/-! ### What of a state is specified -/

/-- The two states agree on the specified part of the hash state of an instance: every register but the bytes of BUF past BLEN
(10_state.md R37) and RESULT. -/
def SameHash (s t : State) : Prop :=
  s.chain = t.chain ∧ s.blen = t.blen ∧ s.buffered = t.buffered ∧ s.t0 = t.t0 ∧ s.t1 = t.t1 ∧
  s.f0 = t.f0 ∧ s.f1 = t.f1 ∧ s.dlen = t.dlen

/-- The two states agree on all that the spec specifies (10_state.md R27, R37, R38): PHASE, the streams and the parser always, the
hash state once an instance exists, the digest bytes once it is finished. They may differ in every register before the first
CONFIG, in BUF past BLEN, and in RESULT. The model's own counter is the same in both, so that both draw the same free values (DESIGN CHOICE,
log 20). -/
def SpecifiedAlike (s t : State) : Prop :=
  s.phase = t.phase ∧ s.parser = t.parser ∧ s.cmdIn = t.cmdIn ∧ s.pos = t.pos ∧ s.out = t.out ∧ s.freeIx = t.freeIx ∧
  (s.phase ≠ .unconfigured → SameHash s t) ∧ (s.phase = .finished → digestBytes s = digestBytes t)

/-- Both stop alike, or both go on to states that agree on all that is specified. -/
def OutcomesAlike : Host.Outcome State Fault Refusal → Host.Outcome State Fault Refusal → Prop
  | .next s, .next t => SpecifiedAlike s t
  | .fault r, .fault q => r = q
  | .refused r, .refused q => r = q
  | _, _ => False

/-! ### The hash as a function -/

/-- Every byte an instance absorbs: the key block, if there is a key, then the message (00_scope.md R16; 40_config.md R111, R116). -/
def absorbedBytes (key message : List Byte) : List Byte :=
  if key = [] then message else key ++ List.replicate (64 - key.length) 0 ++ message

/-- Low and high word of a byte count. -/
@[irreducible] def countLow (n : Nat) : Word := BitVec.ofNat 32 n
@[irreducible] def countHigh (n : Nat) : Word := BitVec.ofNat 32 (n / 2 ^ 32)

/-- CHAIN after every block but the last has been compressed, with the byte count and the bytes held back (42_update.md R164, R166,
R168): while more than 64 bytes remain, one block of 64 is compressed with no flag. -/
def chainOfBlocks : Nat → Vector Word 8 → Nat → List Byte → Vector Word 8 × Nat × List Byte
  | 0, h, t, bytes => (h, t, bytes)
  | fuel + 1, h, t, bytes =>
    if bytes.length > 64 then
      chainOfBlocks fuel (compress h (blockOf bytes) (countLow (t + 64)) (countHigh (t + 64)) noFlag noFlag) (t + 64)
        (bytes.drop 64)
    else (h, t, bytes)

/-- The digest of a message, as a function of the configuration and the message alone (43_digest.md R203): the last 0 to 64 bytes
are compressed with the last-block flag and the total byte count, and the digest is the first DL bytes of BYTES_LE(CHAIN). -/
def digestOf (dl : BitVec 8) (key : List Byte) (salt pers : Option (List Byte)) (message : List Byte) : List Byte :=
  let bytes := absorbedBytes key message
  let r := chainOfBlocks bytes.length (initChain dl key salt pers) 0 bytes
  let h := compress r.1 (blockOf r.2.2) (countLow bytes.length) (countHigh bytes.length) lastBlockFlag noFlag
  (chainBytes h).toList.take dl.toNat

/-- The operands of a CONFIG that succeeds (40_config.md R101 to R105). -/
def ConfigLegal (dl : BitVec 8) (key : List Byte) (salt pers : Option (List Byte)) (uf : Bool) : Prop :=
  1 ≤ dl.toNat ∧ dl.toNat ≤ 32 ∧ key.length ≤ 32 ∧ (∀ b ∈ salt, b.length = 8) ∧ (∀ b ∈ pers, b.length = 8) ∧ uf = false

/-- Which errors of the source apply to a CONFIG (40_config.md R101 to R105). -/
def ConfigErrorApplies (e : Status) (dl : BitVec 8) (key : List Byte) (salt pers : Option (List Byte)) (uf : Bool) : Prop :=
  match e with
  | .invalidDigestLength => dl.toNat < 1 ∨ dl.toNat > 32
  | .invalidKeyLength => key.length > 32
  | .invalidSaltLength => ∃ b, salt = some b ∧ b.length ≠ 8
  | .invalidPersonalizationLength => ∃ b, pers = some b ∧ b.length ≠ 8
  | .unexpectedConfigField => uf = true
  | _ => False

/-- Which errors of the source apply to an UPDATE of an instance (42_update.md R161). -/
def UpdateErrorApplies (e : Status) (et : ElementType) (phase : Phase) : Prop :=
  match e with
  | .invalidInputType => et ≠ .byteSequence
  | .updateAfterFinalize => phase = .finished
  | _ => False

/-- Four bytes read as a little-endian number (20_memory.md R51 to R53), by its value. -/
def littleEndian (b0 b1 b2 b3 : Byte) : Nat :=
  b0.toNat + 2 ^ 8 * b1.toNat + 2 ^ 16 * b2.toNat + 2 ^ 24 * b3.toNat

/-- Word `k` of an optional salt or personalization, and 0 when there is none (40_config.md R109, R110). -/
def optionalWord (bytes : Option (List Byte)) (k : Nat) : Word :=
  match bytes with
  | none => 0
  | some b =>
    BitVec.ofNat 32
      (littleEndian (b.getD (4 * k) 0) (b.getD (4 * k + 1) 0) (b.getD (4 * k + 2) 0) (b.getD (4 * k + 3) 0))

/-- How many blocks an UPDATE of `len` bytes compresses when BUF holds `blen` bytes (42_update.md R163, R164). -/
def blocksCompressed (blen len : Nat) : Nat := if len > 64 - blen then 1 + (len - (64 - blen) - 1) / 64 else 0

end Sys2Proof.Machine
end

