-- ==== Sys2Proof/Certificates/Slice0/Obligations.lean ====
section
/-! DEFINITION. The statements for the provers: what the rules of spec/ say of the engine. -/

open Sys2Proof Sys2Proof.Machine

/-! ### Encoding and the command stream -/

/-- The example headers of 30_encoding.md section 6, each with a payload of the length it announces. -/
def Obligations.SpecExampleHeadersDecode : Prop :=
  decode [0x01, 0x02, 0x00, 0x00] = .command (.config 32 [] none none false) [] ∧
  (∀ key : List Byte, key.length = 32 →
    decode ([0x01, 0x01, 0x02, 0x00] ++ key) = .command (.config 16 key none none false) []) ∧
  (∀ salt pers : List Byte, salt.length = 8 → pers.length = 8 →
    decode ([0x01, 0x02, 0x30, 0x22] ++ (salt ++ pers)) = .command (.config 32 [] (some salt) (some pers) false) []) ∧
  decode [0xc2, 0x00, 0x00, 0x00, 0x61, 0x62, 0x63] = .command (.update .byteSequence [0x61, 0x62, 0x63]) [] ∧
  (∀ data : List Byte, data.length = 64 →
    decode ([0x02, 0x10, 0x00, 0x00] ++ data) = .command (.update .byteSequence data) []) ∧
  decode [0x03, 0x00, 0x00, 0x00] = .command .digest []

/-- Decoding the bytes of a well-formed command gives it back, with the bytes after it (30_encoding.md R70 to R76). -/
def Obligations.DecodeOfEncodeIsTheCommand : Prop :=
  ∀ (i : Instr) (rest : List Byte), i.wf = true → decode (encode i ++ rest) = .command i rest

/-- Each byte sequence that decodes to a command is that command's encoding: every bit of a legal header is an operand. -/
def Obligations.EncodeOfDecodeIsTheBytes : Prop :=
  ∀ (bytes rest : List Byte) (i : Instr), decode bytes = .command i rest → i.wf = true ∧ encode i ++ rest = bytes

/-- 30_encoding.md R84: the header decode function. -/
def Obligations.HeaderDecodesToExactlyOneKind : Prop :=
  ∀ h : Word,
    (headerKind h = .config ↔
      h.toNat % 16 = 1 ∧ h.getLsbD 31 = false ∧ (h.getLsbD 20 = true ∨ h.toNat / 2 ^ 22 % 16 = 0) ∧
        (h.getLsbD 21 = true ∨ h.toNat / 2 ^ 26 % 16 = 0)) ∧
    (headerKind h = .update ↔ h.toNat % 16 = 2) ∧
    (headerKind h = .digest ↔ h = 0x00000003) ∧
    ((∃ why, headerKind h = .illegal why) ↔
      headerKind h ≠ .config ∧ headerKind h ≠ .update ∧ headerKind h ≠ .digest)

/-- 30_encoding.md R83: the length of a command from its header alone. -/
def Obligations.LengthComesFromTheHeader : Prop :=
  ∀ h : Word,
    (h.toNat % 16 = 1 →
      payloadLength h = h.toNat / 2 ^ 12 % 256 + h.toNat / 2 ^ 20 % 2 * (h.toNat / 2 ^ 22 % 16)
        + h.toNat / 2 ^ 21 % 2 * (h.toNat / 2 ^ 26 % 16)) ∧
    (h.toNat % 16 = 2 → payloadLength h = h.toNat / 2 ^ 6) ∧
    (h.toNat % 16 ≠ 1 → h.toNat % 16 ≠ 2 → payloadLength h = 0) ∧
    totalLength h = 4 + payloadLength h ∧ totalLength h ≤ 4 + (2 ^ 26 - 1)

/-- A step runs the command at the head of the stream, in the state whose stream has moved past its bytes (30_encoding.md R70;
10_state.md R32). The bytes may stand partly in the parser. That they carry one producer is the model's form of 20_memory.md R63
(log 8). -/
def Obligations.StepRunsTheDecodedCommand : Prop :=
  ∀ (s : State) (i : Instr) (producer : Nat) (after : List StreamByte),
    i.wf = true → s.arrived = tagged producer (encode i) ++ after →
    step s = exec i { s with
      parser := .header []
      cmdIn := after
      pos := s.pos + (4 + (payloadOf i).length) }

/-- 30_encoding.md R77: a reserved opcode takes four bytes, answers IllegalCommand and changes no register. -/
def Obligations.ReservedOpcodeIsIllegal : Prop :=
  ∀ (s : State) (producer : Nat) (h : Word) (after : List StreamByte),
    s.arrived = tagged producer (bytesLE h) ++ after →
    h.toNat % 16 ≠ 1 → h.toNat % 16 ≠ 2 → h.toNat % 16 ≠ 3 →
    step s = .next { s with parser := .header [], cmdIn := after, pos := s.pos + 4, out := s.out ++ [0x80] }

/-- 30_encoding.md R78: reserved fields and combinations. The payload the header gives is consumed, the answer is IllegalCommand in
every phase, before every other error, and no register changes. -/
def Obligations.ReservedFieldsAreIllegal : Prop :=
  ∀ (s : State) (producer : Nat) (h : Word) (payload : List Byte) (after : List StreamByte),
    s.arrived = tagged producer (bytesLE h ++ payload) ++ after →
    ((h.toNat % 16 = 1 ∧
        (h.getLsbD 31 = true ∨ (h.getLsbD 20 = false ∧ h.toNat / 2 ^ 22 % 16 ≠ 0) ∨
          (h.getLsbD 21 = false ∧ h.toNat / 2 ^ 26 % 16 ≠ 0)) ∧
        payload.length = h.toNat / 2 ^ 12 % 256 + h.toNat / 2 ^ 20 % 2 * (h.toNat / 2 ^ 22 % 16)
          + h.toNat / 2 ^ 21 % 2 * (h.toNat / 2 ^ 26 % 16)) ∨
      (h.toNat % 16 = 3 ∧ h.toNat / 16 ≠ 0 ∧ payload = [])) →
    step s = .next { s with
      parser := .header []
      cmdIn := after
      pos := s.pos + (4 + payload.length)
      out := s.out ++ [0x80] }

/-- 70_reset_and_hazards.md R254, in the model's form (log 9): while bytes of the command are missing, the parser takes those that have
arrived, and the engine stays in that state for ever, with nothing emitted and no register changed. -/
def Obligations.IncompleteCommandWaitsForEver : Prop :=
  ∀ (s : State) (producer : Nat) (bytes : List Byte),
    s.arrived = tagged producer bytes → bytes.length < frameLength bytes →
    ∃ held : Parser,
      parserBytes held = tagged producer bytes ∧
      ∀ k : Nat, Host.Core.run Sys2Proof.core (k + 1) s = .next { s with parser := held, cmdIn := [] }

/-- 20_memory.md R63 and 60_exceptions.md R225, in the model's form (log 8): the run ends in FramingViolation exactly when bytes of two
producers stand inside the command at the head of the stream. -/
def Obligations.InterleavedProducersFault : Prop :=
  ∀ s : State,
    step s = .fault .framingViolation ↔
      ∃ a ∈ s.arrived.take (frameLength (plainBytes s.arrived)),
        ∃ b ∈ s.arrived.take (frameLength (plainBytes s.arrived)), a.producer ≠ b.producer

/-- A step takes no byte of the stream and emits nothing, or takes exactly the bytes of one command (10_state.md R30, R32). -/
def Obligations.StepTakesOneCommand : Prop :=
  ∀ s t : State, step s = .next t →
    (s.arrived.length < frameLength (plainBytes s.arrived) ∧ t.arrived = s.arrived ∧ t.pos = s.pos ∧ t.out = s.out) ∨
    (frameLength (plainBytes s.arrived) ≤ s.arrived.length ∧
      t.arrived = s.arrived.drop (frameLength (plainBytes s.arrived)) ∧
      t.pos = s.pos + frameLength (plainBytes s.arrived) ∧ t.parser = .header [] ∧
      ∃ (e : Status) (bytes : List Byte), t.out = s.out ++ statusCode e :: bytes)

/-- The commands that one producer writes on an idle stream run one after another, one a step, as the same commands given to the
meanings directly (20_memory.md R60; 30_encoding.md R70). Both runs start at one draw number, so where several errors apply to a command
they report the same one, by the model's choice (log 20). -/
def Obligations.StreamRunsAsTheCommandSequence : Prop :=
  ∀ (is : List Instr) (producer : Nat) (s : State),
    (∀ i ∈ is, i.wf = true) → s.parser = .header [] → s.cmdIn = streamOf producer is →
    Host.Core.run Sys2Proof.core is.length s =
      execAll is { s with cmdIn := [], pos := s.pos + (is.flatMap encode).length }

/-! ### CONFIG -/

/-- 40_config.md R107 to R112: the whole next state of a CONFIG that succeeds, in any phase. RESULT, the streams, the position and
the model's counter are as they were. -/
def Obligations.ConfigStartsAnInstance : Prop :=
  ∀ (s : State) (dl : BitVec 8) (key : List Byte) (salt pers : Option (List Byte)) (uf : Bool),
    ConfigLegal dl key salt pers uf →
    exec (.config dl key salt pers uf) s = .next { s with
      chain := #v[0x6A09E667 ^^^ BitVec.ofNat 32 (dl.toNat + 2 ^ 8 * key.length + 2 ^ 16 + 2 ^ 24),
        0xBB67AE85, 0x3C6EF372, 0xA54FF53A,
        0x510E527F ^^^ optionalWord salt 0, 0x9B05688C ^^^ optionalWord salt 1,
        0x1F83D9AB ^^^ optionalWord pers 0, 0x5BE0CD19 ^^^ optionalWord pers 1]
      buf := Vector.ofFn fun i : Fin 64 => if h : i.val < key.length then key[i.val] else 0
      blen := if key.length > 0 then 64 else 0
      t0 := 0
      t1 := 0
      f0 := 0
      f1 := 0
      dlen := Fin.ofNat 33 dl.toNat
      phase := .absorbing
      out := s.out ++ [0x00] }

/-- 40_config.md R106: a failed CONFIG reports an error that applies and changes no register. Only the response and the model's own
counter move. -/
def Obligations.FailedConfigChangesNoRegister : Prop :=
  ∀ (s : State) (dl : BitVec 8) (key : List Byte) (salt pers : Option (List Byte)) (uf : Bool),
    ¬ ConfigLegal dl key salt pers uf →
    ∃ (e : Status) (n : Nat), ConfigErrorApplies e dl key salt pers uf ∧
      exec (.config dl key salt pers uf) s = .next { s with out := s.out ++ [statusCode e], freeIx := n }

/-- A CONFIG to which one error applies reports that one (40_config.md R101 to R105; 30_encoding.md R82). -/
def Obligations.SingleConfigErrorIsReported : Prop :=
  ∀ (s : State) (dl : BitVec 8) (key : List Byte) (salt pers : Option (List Byte)) (uf : Bool) (e : Status),
    ConfigErrorApplies e dl key salt pers uf →
    (∀ e', ConfigErrorApplies e' dl key salt pers uf → e' = e) →
    exec (.config dl key salt pers uf) s = .next { s with
      out := s.out ++ [match e with
        | .invalidDigestLength => 0x01
        | .invalidKeyLength => 0x02
        | .invalidSaltLength => 0x03
        | .invalidPersonalizationLength => 0x04
        | _ => 0x05] }

/-- 60_exceptions.md R226, in the model's form (log 6): the source errors of a CONFIG are a list that its operands fix, and those of an
UPDATE a list that ET and PHASE fix. Each list holds exactly the errors that apply. From a list that is not empty, the command reports
the error at a place that a free value gives, in every state by the same rule; over all values of the free value that is each of the
errors and no other, and a choice among several uses up its draw number. -/
def Obligations.EveryApplicableErrorCanBePicked : Prop :=
  (∀ (dl : BitVec 8) (key : List Byte) (salt pers : Option (List Byte)) (uf : Bool),
    (∀ e, e ∈ configErrors dl key salt pers uf ↔ ConfigErrorApplies e dl key salt pers uf) ∧
    ∀ (first : Status) (others : List Status), configErrors dl key salt pers uf = first :: others →
      (∀ e, (∃ k, pickError first others k = e) ↔ ConfigErrorApplies e dl key salt pers uf) ∧
      ∀ s : State, exec (.config dl key salt pers uf) s = .next { s with
        out := s.out ++ [statusCode (pickError first others (Config.errorChoice s.freeIx))]
        freeIx := if others = [] then s.freeIx else s.freeIx + 1 }) ∧
  (∀ (et : ElementType) (phase : Phase),
    (∀ e, e ∈ updateErrors et phase ↔ UpdateErrorApplies e et phase) ∧
    ∀ (first : Status) (others : List Status), updateErrors et phase = first :: others →
      (∀ e, (∃ k, pickError first others k = e) ↔ UpdateErrorApplies e et phase) ∧
      ∀ (s : State) (data : List Byte), s.phase = phase → phase ≠ .unconfigured →
        exec (.update et data) s = .next { s with
          out := s.out ++ [statusCode (pickError first others (Config.errorChoice s.freeIx))]
          freeIx := if others = [] then s.freeIx else s.freeIx + 1 })

/-- 40_config.md R100, corner cases: a salt of eight zero bytes is as an absent one, and a personalization likewise. The spec
gives this of CHAIN. That the two runs also report the same error when several other errors apply is the model's choice (log 20): both
draw the same free value, where 60_exceptions.md R226 leaves each choice open. -/
def Obligations.ZeroSaltIsAsAbsent : Prop :=
  ∀ (s : State) (dl : BitVec 8) (key : List Byte) (salt pers : Option (List Byte)) (uf : Bool),
    exec (.config dl key (some (List.replicate 8 0)) pers uf) s = exec (.config dl key none pers uf) s ∧
    exec (.config dl key salt (some (List.replicate 8 0)) uf) s = exec (.config dl key salt none uf) s

/-- 40_config.md R115: two digest lengths give two initial chaining values, whatever the other operands. -/
def Obligations.DigestLengthsGiveDifferentChains : Prop :=
  ∀ (s t u : State) (dl dl' : BitVec 8) (key key' : List Byte) (salt salt' pers pers' : Option (List Byte)) (uf uf' : Bool),
    ConfigLegal dl key salt pers uf → ConfigLegal dl' key' salt' pers' uf' → dl ≠ dl' →
    exec (.config dl key salt pers uf) s = .next t → exec (.config dl' key' salt' pers' uf') s = .next u →
    t.chain[0] ≠ u.chain[0]

/-! ### COMPRESS -/

/-- 20_memory.md R51 and R54: message words and digest bytes are little-endian. -/
def Obligations.WordsAndDigestBytesAreLittleEndian : Prop :=
  (∀ (block : Vector Byte 64) (i : Fin 16),
    (messageWords block)[i].toNat =
      littleEndian block[4 * i.val] block[4 * i.val + 1] block[4 * i.val + 2] block[4 * i.val + 3]) ∧
  (∀ (h : Vector Word 8) (j : Fin 8) (k : Fin 4),
    (chainBytes h)[4 * j.val + k.val].toNat = h[j].toNat / 2 ^ (8 * k.val) % 2 ^ 8)

/-- 00_scope.md R11: bit i of rotr(x, n) is bit (i + n) mod 32 of x. -/
def Obligations.RotrMovesEveryBit : Prop :=
  ∀ (x : Word) (n i : Nat), 0 < n → n < 32 → i < 32 → (rotr x n).getLsbD i = x.getLsbD ((i + n) % 32)

/-- For each pair of message words, G is one to one on its four working words (41_compression.md R135): no step loses a bit. -/
def Obligations.MixIsOneToOne : Prop :=
  ∀ x y : Word, Function.Bijective fun v : Word × Word × Word × Word => mixG v.1 v.2.1 v.2.2.1 v.2.2.2 x y

/-- 41_compression.md R136: mixes on disjoint words may be done in either order. -/
def Obligations.MixesOnDisjointWordsCommute : Prop :=
  ∀ (v : Vector Word 16) (a b c d a' b' c' d' : Fin 16) (x y x' y' : Word),
    [a, b, c, d, a', b', c', d'].Nodup →
    mixAt (mixAt v a b c d x y) a' b' c' d' x' y' = mixAt (mixAt v a' b' c' d' x' y') a b c d x y

/-- 41_compression.md R131: each row of SIGMA is a permutation of 0..15. -/
def Obligations.SigmaRowsArePermutations : Prop :=
  ∀ r : Fin 10, ∀ k : Fin 16, k ∈ (sigma[r] : SigmaRow).toList

/-- 41_compression.md R139, worked example, the final compression of the empty, unkeyed message with DL = 32; and 95_test_vectors.md P2,
the compression of the block 00..3f, whose sixteen message words all differ, so that it depends on the entries of SIGMA and on the
pairing of 41_compression.md R136. -/
def Obligations.CompressWorkedExample : Prop :=
  compress #v[0x6B08E647, 0xBB67AE85, 0x3C6EF372, 0xA54FF53A, 0x510E527F, 0x9B05688C, 0x1F83D9AB, 0x5BE0CD19]
      (Vector.replicate 64 0) 0 0 0xFFFFFFFF 0 =
    #v[0x307A2169, 0x94809079, 0xD02111E1, 0x7C4A3542, 0x48B6551F, 0x1EA5A12C, 0xFD0D251B, 0xF9EED01E] ∧
  compress #v[0x48812D20, 0x8755E364, 0xB9AD1D3B, 0xE3E5C5AB, 0xA09A8C09, 0x68BA9AFD, 0xDCDAE2CA, 0x6DA3CDBC]
      (Vector.ofFn fun i : Fin 64 => BitVec.ofNat 8 i.val) 128 0 0 0 =
    #v[0xB9F1F760, 0x5C43D122, 0x506DF646, 0xE483D1E9, 0xBC0B370C, 0x53F5A2D3, 0x7B746D4A, 0xB623F1D4]

/-! ### UPDATE -/

/-- 42_update.md R161: the preconditions of UPDATE, in their order. No register changes when one fails. When both source errors apply,
the model's choice (log 6) is that the free value of this draw picks the one reported; it can pick either, and nothing else. -/
def Obligations.UpdatePreconditions : Prop :=
  ∀ (s : State) (et : ElementType) (data : List Byte),
    (s.phase = .unconfigured → exec (.update et data) s = .next { s with out := s.out ++ [0x81] }) ∧
    (s.phase = .absorbing → et ≠ .byteSequence → exec (.update et data) s = .next { s with out := s.out ++ [0x06] }) ∧
    (s.phase = .finished → et = .byteSequence → exec (.update et data) s = .next { s with out := s.out ++ [0x07] }) ∧
    (s.phase = .finished → et ≠ .byteSequence →
      exec (.update et data) s = .next { s with
        out := s.out ++ [statusCode (pickError .invalidInputType [.updateAfterFinalize] (Config.errorChoice s.freeIx))]
        freeIx := s.freeIx + 1 }) ∧
    (∀ code : Byte, (∃ k, statusCode (pickError .invalidInputType [.updateAfterFinalize] k) = code) ↔ code = 0x06 ∨ code = 0x07)

/-- 42_update.md R162: an UPDATE of no bytes; the checks of R161 come first. -/
def Obligations.ZeroLengthUpdateChangesNothing : Prop :=
  ∀ s : State,
    (s.phase = .unconfigured → exec (.update .byteSequence []) s = .next { s with out := s.out ++ [0x81] }) ∧
    (∀ et, s.phase = .absorbing → et ≠ .byteSequence → exec (.update et []) s = .next { s with out := s.out ++ [0x06] }) ∧
    (s.phase = .absorbing → exec (.update .byteSequence []) s = .next { s with out := s.out ++ [0x00] }) ∧
    (s.phase = .finished → exec (.update .byteSequence []) s = .next { s with out := s.out ++ [0x07] })

/-- 42_update.md R163, R165: bytes that fit in BUF are stored at BLEN on and nothing is compressed. The bytes of BUF past them are
unspecified (10_state.md R35, R37; log 4), so nothing is said of them. -/
def Obligations.UpdateThatFitsIsStored : Prop :=
  ∀ (s : State) (data : List Byte),
    s.phase = .absorbing → 0 < data.length → data.length ≤ 64 - s.blen.val →
    ∃ t : State, exec (.update .byteSequence data) s = .next t ∧
      t.blen.val = s.blen.val + data.length ∧
      (∀ i : Fin 64, i.val < s.blen.val → t.buf[i] = s.buf[i]) ∧
      (∀ (k : Nat) (hk : k < data.length) (i : Fin 64), i.val = s.blen.val + k → t.buf[i] = data[k]) ∧
      t = { s with buf := t.buf, blen := t.blen, out := s.out ++ [0x00], freeIx := t.freeIx }

/-- 42_update.md R160, R163 to R165, R167, R171: an UPDATE that absorbs completes unless the counter would pass 2^64 - 1. T counts the
compressed blocks, T + BLEN counts every absorbed byte, BLEN ends in 1..64, and everything but CHAIN, BUF, BLEN, T0 and T1 is as it
was (the response and the model's own counter apart). -/
def Obligations.UpdateCompletesOrOverflows : Prop :=
  ∀ (s : State) (data : List Byte),
    s.phase = .absorbing → data ≠ [] →
    (s.counter + 64 * blocksCompressed s.blen.val data.length < 2 ^ 64 →
      ∃ t : State, exec (.update .byteSequence data) s = .next t ∧
        t.counter = s.counter + 64 * blocksCompressed s.blen.val data.length ∧
        t.counter + t.blen.val = s.counter + s.blen.val + data.length ∧
        1 ≤ t.blen.val ∧ t.blen.val ≤ 64 ∧
        t.f0 = s.f0 ∧ t.f1 = s.f1 ∧ t.phase = .absorbing ∧ t.dlen = s.dlen ∧ t.result = s.result ∧
        t.parser = s.parser ∧ t.cmdIn = s.cmdIn ∧ t.pos = s.pos ∧ t.out = s.out ++ [0x00]) ∧
    (2 ^ 64 ≤ s.counter + 64 * blocksCompressed s.blen.val data.length →
      exec (.update .byteSequence data) s = .fault .counterOverflow)

/-- 42_update.md R163, R164, R166, R168: an UPDATE acts on the bytes in BUF followed by its payload as on one byte string: while more
than 64 bytes remain, one block is compressed with the counter already advanced, and the last 1 to 64 bytes are held back in BUF. -/
def Obligations.UpdateHoldsBackTheLastBlock : Prop :=
  ∀ (s t : State) (data : List Byte),
    s.phase = .absorbing → exec (.update .byteSequence data) s = .next t →
    chainOfBlocks (s.buffered ++ data).length s.chain s.counter (s.buffered ++ data) = (t.chain, t.counter, t.buffered)

/-- 42_update.md R170: the number of compressions of an UPDATE, each of which adds 64 to T, with A = T + BLEN by the invariant. -/
def Obligations.CompressionsPerUpdate : Prop :=
  ∀ (s t : State) (data : List Byte),
    s.Inv → s.phase = .absorbing → data ≠ [] → exec (.update .byteSequence data) s = .next t →
    t.counter = s.counter +
      64 * (((s.counter + s.blen.val + data.length + 63) / 64 - 1) - ((s.counter + s.blen.val + 63) / 64 - 1))

/-- 42_update.md R169: a byte stream absorbed in any chunks leaves the hash state that one UPDATE of all of it leaves, and the one
completes exactly when the other does. -/
def Obligations.StreamingEquivalence : Prop :=
  ∀ (s : State) (chunks : List (List Byte)), s.phase = .absorbing →
    (∀ t, execAll (updates chunks) s = .next t →
      ∃ u, exec (.update .byteSequence chunks.flatten) s = .next u ∧ SameHash t u ∧ t.phase = u.phase ∧ t.result = u.result) ∧
    (∀ u, exec (.update .byteSequence chunks.flatten) s = .next u →
      ∃ t, execAll (updates chunks) s = .next t ∧ SameHash t u ∧ t.phase = u.phase ∧ t.result = u.result)

/-- 42_update.md R167: counter addition over the pair T1:T0, with the carry, and the fault above 2^64 - 1. -/
def Obligations.CounterAdditionCarriesOrFaults : Prop :=
  ∀ (s : State) (n : Nat) (block : Vector Byte 64) (f0 f1 : Word),
    (s.counter + n < 2 ^ 64 →
      ∃ t, compressBlock block n f0 f1 s = .next t ∧ t.counter = s.counter + n ∧
        t.t0.toNat = (s.t0.toNat + n) % 2 ^ 32 ∧ t.t1.toNat = s.t1.toNat + (s.t0.toNat + n) / 2 ^ 32 ∧
        t.chain = compress s.chain block t.t0 t.t1 f0 f1 ∧
        t = { s with t0 := t.t0, t1 := t.t1, chain := t.chain }) ∧
    (2 ^ 64 ≤ s.counter + n → compressBlock block n f0 f1 s = .fault .counterOverflow)

/-! ### DIGEST -/

/-- 43_digest.md R192: DIGEST with no instance. -/
def Obligations.DigestWithoutInstance : Prop :=
  ∀ s : State, s.phase = .unconfigured → exec .digest s = .next { s with out := s.out ++ [0x81] }

/-- 43_digest.md R193 to R195, R197: the first DIGEST of an instance, its result and its frame. The bytes RESULT[DLEN..31] are
unspecified (10_state.md R27; log 5), so nothing is said of them. -/
def Obligations.FirstDigestFinalizes : Prop :=
  ∀ s : State, s.phase = .absorbing → s.counter + s.blen.val < 2 ^ 64 →
    ∃ t : State, exec .digest s = .next t ∧
      (∀ i : Fin 64, t.buf[i] = if i.val < s.blen.val then s.buf[i] else 0) ∧
      t.counter = s.counter + s.blen.val ∧
      t.f0 = 0xFFFFFFFF ∧
      t.chain = compress s.chain t.buf t.t0 t.t1 0xFFFFFFFF s.f1 ∧ (s.f1 = 0 → t.f1 = 0) ∧
      (∀ j : Fin 32, j.val < s.dlen.val →
        t.result[j].toNat = (t.chain[j.val / 4]'(by omega)).toNat / 2 ^ (8 * (j.val % 4)) % 2 ^ 8) ∧
      t.phase = .finished ∧
      t.out = s.out ++ 0x00 :: t.result.toList.take s.dlen.val ∧
      t.blen = s.blen ∧ t.f1 = s.f1 ∧ t.dlen = s.dlen ∧ t.parser = s.parser ∧ t.cmdIn = s.cmdIn ∧ t.pos = s.pos

/-- 43_digest.md R190, errors: a DIGEST whose T would pass 2^64 - 1 ends the run. -/
def Obligations.DigestOverflowFaults : Prop :=
  ∀ s : State, s.phase = .absorbing → 2 ^ 64 ≤ s.counter + s.blen.val → exec .digest s = .fault .counterOverflow

/-- 43_digest.md R191: in phase FINISHED, DIGEST emits OK and the cached digest and changes no register; so after a first DIGEST a
second one emits the same bytes. -/
def Obligations.DigestIsIdempotent : Prop :=
  (∀ s : State, s.phase = .finished →
    exec .digest s = .next { s with out := s.out ++ 0x00 :: s.result.toList.take s.dlen.val }) ∧
  (∀ s t : State, s.phase = .absorbing → exec .digest s = .next t →
    exec .digest t = .next { t with out := t.out ++ t.out.drop s.out.length })

/-- 43_digest.md R199: a successful DIGEST emits exactly 1 + DLEN bytes, the status and RESULT[0..DLEN-1]. -/
def Obligations.DigestResponseHasDlenBytes : Prop :=
  ∀ s t : State, s.phase ≠ .unconfigured → exec .digest s = .next t →
    t.out = s.out ++ 0x00 :: t.result.toList.take s.dlen.val ∧ t.out.length = s.out.length + 1 + s.dlen.val

/-- 43_digest.md R201, R202: the one compression of an instance that absorbed no message byte: 64 zero bytes with T = 0 when there is
no key, the key block with T = 64 when there is one. -/
def Obligations.EmptyMessageHasOneCompression : Prop :=
  ∀ (s : State) (dl : BitVec 8) (key : List Byte) (salt pers : Option (List Byte)) (uf : Bool),
    ConfigLegal dl key salt pers uf →
    ∃ t u : State, exec (.config dl key salt pers uf) s = .next t ∧ exec .digest t = .next u ∧
      (key = [] → u.counter = 0 ∧ u.chain = compress t.chain (Vector.replicate 64 0) 0 0 0xFFFFFFFF 0) ∧
      (key ≠ [] → u.counter = 64 ∧ u.chain = compress t.chain t.buf 64 0 0xFFFFFFFF 0)

/-- 43_digest.md R203 with 42_update.md R166, R168, R169 and 40_config.md R116: from any state, CONFIG, any UPDATE commands and DIGEST
answer OK each, and then the digest as a function of the configuration and the message alone. -/
def Obligations.EngineComputesTheHash : Prop :=
  ∀ (s : State) (dl : BitVec 8) (key : List Byte) (salt pers : Option (List Byte)) (uf : Bool) (chunks : List (List Byte)),
    ConfigLegal dl key salt pers uf → (absorbedBytes key chunks.flatten).length < 2 ^ 64 →
    ∃ t : State, execAll ([.config dl key salt pers uf] ++ updates chunks ++ [.digest]) s = .next t ∧
      t.out = s.out ++ List.replicate (chunks.length + 2) 0x00 ++ digestOf dl key salt pers chunks.flatten

/-! ### Errors, phases, reset, engines -/

/-- 30_encoding.md R81: the response of every command, legal or not. -/
def Obligations.ResponseFormat : Prop :=
  (∀ (i : Instr) (s t : State), exec i s = .next t →
    (i = .digest ∧ s.phase ≠ .unconfigured ∧ t.out = s.out ++ statusCode .ok :: t.result.toList.take t.dlen.val) ∨
    ((i = .digest → s.phase = .unconfigured) ∧ ∃ e, (i = .digest → e ≠ .ok) ∧ t.out = s.out ++ [statusCode e])) ∧
  (∀ (s : State) (why : Illegal) (len : Nat) (rest : List StreamByte),
    fetch s.arrived = .illegal why len rest → ∃ t, step s = .next t ∧ t.out = s.out ++ [statusCode .illegalCommand])

/-- 60_exceptions.md R220: a command ends in success, with status OK first, or in an error, which changes no register and emits one
status byte. Its bytes are consumed either way. The model's own counter is no register. -/
def Obligations.FailedCommandChangesNoRegister : Prop :=
  (∀ (s t : State) (i : Instr) (len : Nat) (rest : List StreamByte),
    fetch s.arrived = .command i len rest → step s = .next t →
    t.parser = .header [] ∧ t.cmdIn = rest ∧ t.pos = s.pos + len ∧
    ((∃ bytes, t.out = s.out ++ statusCode .ok :: bytes) ∨
      ∃ (e : Status) (n : Nat), e ≠ .ok ∧
        t = { s with parser := .header [], cmdIn := rest, pos := s.pos + len, out := s.out ++ [statusCode e], freeIx := n })) ∧
  (∀ (s : State) (why : Illegal) (len : Nat) (rest : List StreamByte),
    fetch s.arrived = .illegal why len rest →
    step s = .next { s with parser := .header [], cmdIn := rest, pos := s.pos + len, out := s.out ++ [statusCode .illegalCommand] })

/-- 10_state.md R25: PHASE, its encoding, and the only events that write it. -/
def Obligations.OnlyThreeEventsWritePhase : Prop :=
  (phaseCode .unconfigured = 0 ∧ phaseCode .absorbing = 1 ∧ phaseCode .finished = 2 ∧ ∀ p, phaseCode p ≠ 3) ∧
  (∀ s, (resetEvent s).phase = .unconfigured) ∧
  (∀ (i : Instr) (s t : State), exec i s = .next t →
    t.phase = s.phase ∨
    (t.phase = .absorbing ∧ ∃ dl key salt pers uf, i = .config dl key salt pers uf ∧ ConfigLegal dl key salt pers uf) ∨
    (s.phase = .absorbing ∧ t.phase = .finished ∧ i = .digest)) ∧
  (∀ dl key salt pers uf (s t : State), ConfigLegal dl key salt pers uf → exec (.config dl key salt pers uf) s = .next t →
    t.phase = .absorbing) ∧
  (∀ s t : State, s.phase = .absorbing → exec .digest s = .next t → t.phase = .finished) ∧
  (∀ s t : State, step s = .next t → (∀ i len rest, fetch s.arrived ≠ .command i len rest) → t.phase = s.phase)

/-- 10_state.md R36: in phase FINISHED only CONFIG changes a register. -/
def Obligations.FinishedChangesOnlyByConfig : Prop :=
  ∀ (i : Instr) (s : State), s.phase = .finished → (∀ dl key salt pers uf, i ≠ .config dl key salt pers uf) →
    ∃ (bytes : List Byte) (n : Nat), exec i s = .next { s with out := s.out ++ bytes, freeIx := n }

/-- No command is refused, CONFIG never faults, and a command faults only by counter overflow while absorbing (60_exceptions.md R220,
R225). -/
def Obligations.OnlyOverflowStopsACommand : Prop :=
  (∀ (s : State) (r : Refusal), step s ≠ .refused r) ∧
  (∀ (i : Instr) (s : State) (r : Fault), exec i s = .fault r →
    r = .counterOverflow ∧ s.phase = .absorbing ∧ (i = .digest ∨ ∃ data, data ≠ [] ∧ i = .update .byteSequence data))

/-- The invariant of 10_state.md R35 and R36 holds at reset, where no instance exists. -/
def Obligations.InvariantAtReset : Prop := State.reset.Inv

/-- 10_state.md R35, R36: every step keeps the invariant. -/
def Obligations.EveryStepKeepsTheInvariant : Prop := ∀ s t : State, s.Inv → step s = .next t → t.Inv

/-- What the host does between steps keeps the invariant: writing, reading, reset. -/
def Obligations.HostActionsKeepTheInvariant : Prop :=
  ∀ s : State, s.Inv →
    (∀ producer bytes, (hostWrite producer bytes s).Inv) ∧ (∀ n, (hostRead n s).2.Inv) ∧ (resetEvent s).Inv

/-- What 70_reset_and_hazards.md R250 fixes of the state after reset and after a reset event. That reset leaves no byte on the command
stream, position 0 and counter 0 is the model's choice (logs 2, 3, 7) and not stated. -/
def Obligations.ResetClearsPhaseParserAndResponses : Prop :=
  (State.reset.phase = .unconfigured ∧ State.reset.parser = .header [] ∧ State.reset.out = []) ∧
  (∀ s : State, (resetEvent s).phase = .unconfigured ∧ (resetEvent s).parser = .header [] ∧ (resetEvent s).out = [])

/-- 10_state.md R27, R37, R38; 43_digest.md R203: what the spec leaves unspecified cannot be observed. Two states that agree on all
that is specified take steps with the same responses, to states that agree again. `SpecifiedAlike` has the same draw number as a premise.
By it, and by the model's choice that one draw number gives one pick (log 20), both report the same error when several apply, which
60_exceptions.md R226 leaves open; of that case the spec gives only that the responses are one byte of an error that applies. -/
def Obligations.UnspecifiedStateIsUnobservable : Prop :=
  ∀ s t : State, SpecifiedAlike s t → OutcomesAlike (step s) (step t)

/-- 20_memory.md R64: a step of one engine changes no other. It is said of steps that go on: that a fault of one engine ends the run of
all is the model's choice (log 21). -/
def Obligations.EnginesAreIndependent : Prop :=
  ∀ (n : Nat) (engines engines' : Vector State n) (k : Fin n),
    systemStep engines k = .next engines' →
    (∀ j : Fin n, j ≠ k → engines'[j] = engines[j]) ∧ step engines[k] = .next engines'[k]

/-! ### Host side -/

/-- 43_digest.md R200: digit n is the n-th character of 0123456789abcdef, the hex rendering has two characters a byte, and characters
2j and 2j + 1 are the digits of the upper and the lower nibble of byte j. -/
def Obligations.HexDigestRendersEachByte : Prop :=
  (∀ n : Nat, n < 16 → "0123456789abcdef".toList[n]? = some (hexDigit n)) ∧
  ∀ digest : List Byte,
    (hexDigest digest).length = 2 * digest.length ∧
    ∀ (j : Nat) (hj : j < digest.length),
      (hexDigest digest)[2 * j]? = some (hexDigit (digest[j].toNat / 16)) ∧
      (hexDigest digest)[2 * j + 1]? = some (hexDigit (digest[j].toNat % 16))

/-- 30_encoding.md R86: the UPDATE commands of a software update carry the selected bytes in order, at least one command, each with an
encoding. That a range past the end of the array selects the bytes there are is the model's choice (log 22). -/
def Obligations.HostUpdateCarriesTheSelectedBytes : Prop :=
  ∀ (bytes : List Byte) (offset length : Nat),
    ∃ chunks : List (List Byte), hostUpdate bytes offset length = updates chunks ∧ chunks ≠ [] ∧
      chunks.flatten = (bytes.drop offset).take length ∧ ∀ i ∈ hostUpdate bytes offset length, i.wf = true
end

