-- ==== Sys2Proof/Laws/State.lean ====
section
/-! SUPPORT. What each named update of the state does to each field, one lemma per field per update. -/

namespace Sys2Proof.Machine

section
variable (s : State)
@[simp] theorem State.emit_chain (bytes : List Byte) : (s.emit bytes).chain = s.chain := rfl
@[simp] theorem State.emit_buf (bytes : List Byte) : (s.emit bytes).buf = s.buf := rfl
@[simp] theorem State.emit_blen (bytes : List Byte) : (s.emit bytes).blen = s.blen := rfl
@[simp] theorem State.emit_t0 (bytes : List Byte) : (s.emit bytes).t0 = s.t0 := rfl
@[simp] theorem State.emit_t1 (bytes : List Byte) : (s.emit bytes).t1 = s.t1 := rfl
@[simp] theorem State.emit_f0 (bytes : List Byte) : (s.emit bytes).f0 = s.f0 := rfl
@[simp] theorem State.emit_f1 (bytes : List Byte) : (s.emit bytes).f1 = s.f1 := rfl
@[simp] theorem State.emit_phase (bytes : List Byte) : (s.emit bytes).phase = s.phase := rfl
@[simp] theorem State.emit_dlen (bytes : List Byte) : (s.emit bytes).dlen = s.dlen := rfl
@[simp] theorem State.emit_result (bytes : List Byte) : (s.emit bytes).result = s.result := rfl
@[simp] theorem State.emit_parser (bytes : List Byte) : (s.emit bytes).parser = s.parser := rfl
@[simp] theorem State.emit_cmdIn (bytes : List Byte) : (s.emit bytes).cmdIn = s.cmdIn := rfl
@[simp] theorem State.emit_pos (bytes : List Byte) : (s.emit bytes).pos = s.pos := rfl
@[simp] theorem State.emit_out (bytes : List Byte) : (s.emit bytes).out = s.out ++ bytes := rfl
@[simp] theorem State.emit_freeIx (bytes : List Byte) : (s.emit bytes).freeIx = s.freeIx := rfl
end

section
variable (s : State)
@[simp] theorem State.draw_chain : (s.draw).chain = s.chain := rfl
@[simp] theorem State.draw_buf : (s.draw).buf = s.buf := rfl
@[simp] theorem State.draw_blen : (s.draw).blen = s.blen := rfl
@[simp] theorem State.draw_t0 : (s.draw).t0 = s.t0 := rfl
@[simp] theorem State.draw_t1 : (s.draw).t1 = s.t1 := rfl
@[simp] theorem State.draw_f0 : (s.draw).f0 = s.f0 := rfl
@[simp] theorem State.draw_f1 : (s.draw).f1 = s.f1 := rfl
@[simp] theorem State.draw_phase : (s.draw).phase = s.phase := rfl
@[simp] theorem State.draw_dlen : (s.draw).dlen = s.dlen := rfl
@[simp] theorem State.draw_result : (s.draw).result = s.result := rfl
@[simp] theorem State.draw_parser : (s.draw).parser = s.parser := rfl
@[simp] theorem State.draw_cmdIn : (s.draw).cmdIn = s.cmdIn := rfl
@[simp] theorem State.draw_pos : (s.draw).pos = s.pos := rfl
@[simp] theorem State.draw_out : (s.draw).out = s.out := rfl
@[simp] theorem State.draw_freeIx : (s.draw).freeIx = s.freeIx + 1 := rfl
end

section
variable (s : State)
@[simp] theorem State.consume_chain (n : Nat) (rest : List StreamByte) : (s.consume n rest).chain = s.chain := rfl
@[simp] theorem State.consume_buf (n : Nat) (rest : List StreamByte) : (s.consume n rest).buf = s.buf := rfl
@[simp] theorem State.consume_blen (n : Nat) (rest : List StreamByte) : (s.consume n rest).blen = s.blen := rfl
@[simp] theorem State.consume_t0 (n : Nat) (rest : List StreamByte) : (s.consume n rest).t0 = s.t0 := rfl
@[simp] theorem State.consume_t1 (n : Nat) (rest : List StreamByte) : (s.consume n rest).t1 = s.t1 := rfl
@[simp] theorem State.consume_f0 (n : Nat) (rest : List StreamByte) : (s.consume n rest).f0 = s.f0 := rfl
@[simp] theorem State.consume_f1 (n : Nat) (rest : List StreamByte) : (s.consume n rest).f1 = s.f1 := rfl
@[simp] theorem State.consume_phase (n : Nat) (rest : List StreamByte) : (s.consume n rest).phase = s.phase := rfl
@[simp] theorem State.consume_dlen (n : Nat) (rest : List StreamByte) : (s.consume n rest).dlen = s.dlen := rfl
@[simp] theorem State.consume_result (n : Nat) (rest : List StreamByte) : (s.consume n rest).result = s.result := rfl
@[simp] theorem State.consume_parser (n : Nat) (rest : List StreamByte) : (s.consume n rest).parser = .header [] := rfl
@[simp] theorem State.consume_cmdIn (n : Nat) (rest : List StreamByte) : (s.consume n rest).cmdIn = rest := rfl
@[simp] theorem State.consume_pos (n : Nat) (rest : List StreamByte) : (s.consume n rest).pos = s.pos + n := rfl
@[simp] theorem State.consume_out (n : Nat) (rest : List StreamByte) : (s.consume n rest).out = s.out := rfl
@[simp] theorem State.consume_freeIx (n : Nat) (rest : List StreamByte) : (s.consume n rest).freeIx = s.freeIx := rfl
end

section
variable (s : State)
@[simp] theorem State.hold_chain (p : Parser) : (s.hold p).chain = s.chain := rfl
@[simp] theorem State.hold_buf (p : Parser) : (s.hold p).buf = s.buf := rfl
@[simp] theorem State.hold_blen (p : Parser) : (s.hold p).blen = s.blen := rfl
@[simp] theorem State.hold_t0 (p : Parser) : (s.hold p).t0 = s.t0 := rfl
@[simp] theorem State.hold_t1 (p : Parser) : (s.hold p).t1 = s.t1 := rfl
@[simp] theorem State.hold_f0 (p : Parser) : (s.hold p).f0 = s.f0 := rfl
@[simp] theorem State.hold_f1 (p : Parser) : (s.hold p).f1 = s.f1 := rfl
@[simp] theorem State.hold_phase (p : Parser) : (s.hold p).phase = s.phase := rfl
@[simp] theorem State.hold_dlen (p : Parser) : (s.hold p).dlen = s.dlen := rfl
@[simp] theorem State.hold_result (p : Parser) : (s.hold p).result = s.result := rfl
@[simp] theorem State.hold_parser (p : Parser) : (s.hold p).parser = p := rfl
@[simp] theorem State.hold_cmdIn (p : Parser) : (s.hold p).cmdIn = [] := rfl
@[simp] theorem State.hold_pos (p : Parser) : (s.hold p).pos = s.pos := rfl
@[simp] theorem State.hold_out (p : Parser) : (s.hold p).out = s.out := rfl
@[simp] theorem State.hold_freeIx (p : Parser) : (s.hold p).freeIx = s.freeIx := rfl
end

section
variable (s : State)
@[simp] theorem State.startInstance_chain (dl : BitVec 8) (key : List Byte) (salt pers : Option (List Byte)) : (s.startInstance dl key salt pers).chain = initChain dl key salt pers := rfl
@[simp] theorem State.startInstance_buf (dl : BitVec 8) (key : List Byte) (salt pers : Option (List Byte)) : (s.startInstance dl key salt pers).buf = blockOf key := rfl
@[simp] theorem State.startInstance_blen (dl : BitVec 8) (key : List Byte) (salt pers : Option (List Byte)) : (s.startInstance dl key salt pers).blen = keyBlockLength key := rfl
@[simp] theorem State.startInstance_t0 (dl : BitVec 8) (key : List Byte) (salt pers : Option (List Byte)) : (s.startInstance dl key salt pers).t0 = 0 := rfl
@[simp] theorem State.startInstance_t1 (dl : BitVec 8) (key : List Byte) (salt pers : Option (List Byte)) : (s.startInstance dl key salt pers).t1 = 0 := rfl
@[simp] theorem State.startInstance_f0 (dl : BitVec 8) (key : List Byte) (salt pers : Option (List Byte)) : (s.startInstance dl key salt pers).f0 = noFlag := rfl
@[simp] theorem State.startInstance_f1 (dl : BitVec 8) (key : List Byte) (salt pers : Option (List Byte)) : (s.startInstance dl key salt pers).f1 = noFlag := rfl
@[simp] theorem State.startInstance_phase (dl : BitVec 8) (key : List Byte) (salt pers : Option (List Byte)) : (s.startInstance dl key salt pers).phase = .absorbing := rfl
@[simp] theorem State.startInstance_dlen (dl : BitVec 8) (key : List Byte) (salt pers : Option (List Byte)) : (s.startInstance dl key salt pers).dlen = Fin.ofNat 33 dl.toNat := rfl
@[simp] theorem State.startInstance_result (dl : BitVec 8) (key : List Byte) (salt pers : Option (List Byte)) : (s.startInstance dl key salt pers).result = s.result := rfl
@[simp] theorem State.startInstance_parser (dl : BitVec 8) (key : List Byte) (salt pers : Option (List Byte)) : (s.startInstance dl key salt pers).parser = s.parser := rfl
@[simp] theorem State.startInstance_cmdIn (dl : BitVec 8) (key : List Byte) (salt pers : Option (List Byte)) : (s.startInstance dl key salt pers).cmdIn = s.cmdIn := rfl
@[simp] theorem State.startInstance_pos (dl : BitVec 8) (key : List Byte) (salt pers : Option (List Byte)) : (s.startInstance dl key salt pers).pos = s.pos := rfl
@[simp] theorem State.startInstance_out (dl : BitVec 8) (key : List Byte) (salt pers : Option (List Byte)) : (s.startInstance dl key salt pers).out = s.out := rfl
@[simp] theorem State.startInstance_freeIx (dl : BitVec 8) (key : List Byte) (salt pers : Option (List Byte)) : (s.startInstance dl key salt pers).freeIx = s.freeIx := rfl
end

section
variable (data : List Byte) (s : State)
@[simp] theorem holdBack_chain : (holdBack data s).chain = s.chain := by simp only [holdBack]
@[simp] theorem holdBack_buf : (holdBack data s).buf = bufFreeFrom (bufWrite s.buf s.blen.val data) (s.blen.val + data.length) s.freeIx := by simp only [holdBack]
@[simp] theorem holdBack_blen : (holdBack data s).blen = Fin.ofNat 65 (s.blen.val + data.length) := by simp only [holdBack]
@[simp] theorem holdBack_t0 : (holdBack data s).t0 = s.t0 := by simp only [holdBack]
@[simp] theorem holdBack_t1 : (holdBack data s).t1 = s.t1 := by simp only [holdBack]
@[simp] theorem holdBack_f0 : (holdBack data s).f0 = s.f0 := by simp only [holdBack]
@[simp] theorem holdBack_f1 : (holdBack data s).f1 = s.f1 := by simp only [holdBack]
@[simp] theorem holdBack_phase : (holdBack data s).phase = s.phase := by simp only [holdBack]
@[simp] theorem holdBack_dlen : (holdBack data s).dlen = s.dlen := by simp only [holdBack]
@[simp] theorem holdBack_result : (holdBack data s).result = s.result := by simp only [holdBack]
@[simp] theorem holdBack_parser : (holdBack data s).parser = s.parser := by simp only [holdBack]
@[simp] theorem holdBack_cmdIn : (holdBack data s).cmdIn = s.cmdIn := by simp only [holdBack]
@[simp] theorem holdBack_pos : (holdBack data s).pos = s.pos := by simp only [holdBack]
@[simp] theorem holdBack_out : (holdBack data s).out = s.out := by simp only [holdBack]
@[simp] theorem holdBack_freeIx : (holdBack data s).freeIx = s.freeIx + 1 := by simp only [holdBack]
end

end Sys2Proof.Machine
end

