-- ==== Sys2Proof/Laws/Ops.lean ====
section
/-! SUPPORT. One lemma for each shared operation, which says everything it can do. -/

namespace Sys2Proof.Machine

/-! ### Sequencing -/

section
variable {α β γ : Type} (o : Host.Outcome α Fault Refusal) (k : α → Host.Outcome β Fault Refusal)

@[simp] theorem andThen_of_next (a : α) : andThen (.next a) k = k a := rfl
@[simp] theorem andThen_of_fault (r : Fault) : andThen (.fault r) k = .fault r := rfl
@[simp] theorem andThen_of_refused (r : Refusal) : andThen (.refused r) k = .refused r := rfl

theorem andThen_eq_next {b : β} : andThen o k = .next b ↔ ∃ a, o = .next a ∧ k a = .next b := by
  cases o <;> simp

theorem andThen_eq_fault {r : Fault} :
    andThen o k = .fault r ↔ o = .fault r ∨ ∃ a, o = .next a ∧ k a = .fault r := by
  cases o <;> simp

theorem andThen_eq_refused {r : Refusal} :
    andThen o k = .refused r ↔ o = .refused r ∨ ∃ a, o = .next a ∧ k a = .refused r := by
  cases o <;> simp

theorem andThen_assoc (l : β → Host.Outcome γ Fault Refusal) :
    andThen (andThen o k) l = andThen o fun a => andThen (k a) l := by
  cases o <;> rfl
end

/-! ### Errors -/

theorem raise_eq (e : Status) (s : State) : raise e s = .next { s with out := s.out ++ [statusCode e] } := rfl

/-- Whatever is picked is one of the errors that apply. -/
theorem pickError_mem (first : Status) (others : List Status) (k : Nat) : pickError first others k ∈ first :: others := by
  have h : k % (others.length + 1) < (first :: others).length := by
    simpa using Nat.mod_lt k (Nat.succ_pos _)
  rw [pickError, List.getD_eq_getElem _ _ h]
  exact List.getElem_mem h

/-- Over all values of the free value, the pick is each of the errors that apply and no other. -/
theorem exists_pickError_iff (first : Status) (others : List Status) (e : Status) :
    (∃ k, pickError first others k = e) ↔ e ∈ first :: others := by
  constructor
  · rintro ⟨k, rfl⟩
    exact pickError_mem first others k
  · intro h
    obtain ⟨k, hk, rfl⟩ := List.mem_iff_getElem.1 h
    exact ⟨k, by rw [pickError, Nat.mod_eq_of_lt (by simpa using hk), List.getD_eq_getElem _ _ hk]⟩

/-- Raising one of a set of errors raises the one that the free value picks, and a pick among several uses up a draw number. -/
theorem raiseOneOf_next (first : Status) (others : List Status) (s : State) :
    raiseOneOf first others s = .next { s with
      out := s.out ++ [statusCode (pickError first others (Config.errorChoice s.freeIx))]
      freeIx := if others = [] then s.freeIx else s.freeIx + 1 } := by
  cases others with
  | nil => simp [raiseOneOf, raise, State.emit, pickError, Nat.mod_one]
  | cons e es => rfl

/-- As `raiseOneOf_next`, without the draw number. -/
theorem raiseOneOf_eq (first : Status) (others : List Status) (s : State) :
    ∃ n, raiseOneOf first others s = .next { s with
      out := s.out ++ [statusCode (pickError first others (Config.errorChoice s.freeIx))]
      freeIx := n } := ⟨_, raiseOneOf_next first others s⟩

theorem raiseOneOf_single (e : Status) (s : State) : raiseOneOf e [] s = raise e s := rfl

/-! ### Compression -/

/-- Counting and compressing a block writes CHAIN, T0 and T1 alone, or overflows. -/
theorem compressBlock_cases (block : Vector Byte 64) (n : Nat) (f0 f1 : Word) (s : State) :
    (addCounter s.t0 s.t1 n = none ∧ compressBlock block n f0 f1 s = .fault .counterOverflow) ∨
    ∃ t0 t1, addCounter s.t0 s.t1 n = some (t0, t1) ∧
      compressBlock block n f0 f1 s =
        .next { s with t0 := t0, t1 := t1, chain := compress s.chain block t0 t1 f0 f1 } := by
  unfold compressBlock
  rcases addCounter s.t0 s.t1 n with _ | ⟨t0, t1⟩
  · exact .inl ⟨rfl, rfl⟩
  · exact .inr ⟨t0, t1, rfl, rfl⟩

theorem compressBlock_next {block : Vector Byte 64} {n : Nat} {f0 f1 : Word} {s t : State}
    (h : compressBlock block n f0 f1 s = .next t) :
    t = { s with t0 := t.t0, t1 := t.t1, chain := compress s.chain block t.t0 t.t1 f0 f1 } ∧
      addCounter s.t0 s.t1 n = some (t.t0, t.t1) := by
  obtain ⟨-, h'⟩ | ⟨t0, t1, ha, h'⟩ := compressBlock_cases block n f0 f1 s
  · simp [h'] at h
  · rw [h'] at h
    obtain rfl := Host.Outcome.next.inj h
    exact ⟨rfl, ha⟩

/-! ### The streaming controller -/

/-- A top-up writes CHAIN, T0, T1, BUF and BLEN alone, and BLEN becomes 0. -/
theorem topUp_next {data : List Byte} {s t : State} (h : topUp data s = .next t) :
    t = { s with t0 := t.t0, t1 := t.t1, chain := t.chain, buf := bufWrite s.buf s.blen.val data, blen := 0 } ∧
      addCounter s.t0 s.t1 64 = some (t.t0, t.t1) ∧
      t.chain = compress s.chain (bufWrite s.buf s.blen.val data) t.t0 t.t1 noFlag noFlag := by
  obtain ⟨u, hu, ht⟩ := (andThen_eq_next _ _).1 h
  obtain ⟨hu', ha⟩ := compressBlock_next hu
  obtain rfl := Host.Outcome.next.inj ht
  rw [hu'] at ha ⊢
  exact ⟨rfl, ha, rfl⟩

/-- Draining whole blocks writes CHAIN, T0 and T1 alone. -/
theorem drainBlocks_next {fuel : Nat} {data : List Byte} {s : State} {r : State × List Byte}
    (h : drainBlocks fuel data s = .next r) :
    r.1 = { s with t0 := r.1.t0, t1 := r.1.t1, chain := r.1.chain } := by
  induction fuel generalizing data s with
  | zero => obtain rfl := Host.Outcome.next.inj h; rfl
  | succ k ih =>
    rw [drainBlocks] at h
    split at h
    · obtain ⟨u, hu, hr⟩ := (andThen_eq_next _ _).1 h
      rw [ih hr, (compressBlock_next hu).1]
    · obtain rfl := Host.Outcome.next.inj h; rfl

/-- Absorbing writes CHAIN, T0, T1, BUF, BLEN and the model's counter alone. -/
theorem absorb_next {data : List Byte} {s t : State} (h : absorb data s = .next t) :
    t = { s with t0 := t.t0, t1 := t.t1, chain := t.chain, buf := t.buf, blen := t.blen, freeIx := s.freeIx + 1 } := by
  rw [absorb] at h
  split at h
  · obtain ⟨u, hu, h⟩ := (andThen_eq_next _ _).1 h
    obtain ⟨r, hr, h⟩ := (andThen_eq_next _ _).1 h
    obtain rfl := Host.Outcome.next.inj h
    simp only [holdBack]
    rw [drainBlocks_next hr, (topUp_next hu).1]
  · obtain rfl := Host.Outcome.next.inj h
    simp only [holdBack]

/-! ### Finalization -/

/-- Finalization writes BUF, F0, T0, T1, CHAIN, RESULT, PHASE and the model's counter alone. -/
theorem finalize_next {s t : State} (h : finalize s = .next t) :
    t = { s with
      buf := bufZeroFrom s.buf s.blen.val, f0 := lastBlockFlag, t0 := t.t0, t1 := t.t1
      chain := compress s.chain (bufZeroFrom s.buf s.blen.val) t.t0 t.t1 lastBlockFlag s.f1
      result := resultOf t.chain s.dlen.val s.freeIx, phase := .finished, freeIx := s.freeIx + 1 } ∧
      addCounter s.t0 s.t1 s.blen.val = some (t.t0, t.t1) := by
  obtain ⟨u, hu, h⟩ := (andThen_eq_next _ _).1 h
  obtain ⟨hu', ha⟩ := compressBlock_next hu
  obtain rfl := Host.Outcome.next.inj h
  rw [hu'] at ha ⊢
  exact ⟨rfl, ha⟩

/-! ### The commands -/

/-- Everything CONFIG can do. -/
theorem execConfig_cases (dl : BitVec 8) (key : List Byte) (salt pers : Option (List Byte)) (uf : Bool) (s : State) :
    (configErrors dl key salt pers uf = [] ∧
      execConfig dl key salt pers uf s = .next ((s.startInstance dl key salt pers).emit [statusCode .ok])) ∨
    ∃ e others, configErrors dl key salt pers uf = e :: others ∧
      execConfig dl key salt pers uf s = raiseOneOf e others s := by
  unfold execConfig
  rcases configErrors dl key salt pers uf with _ | ⟨e, others⟩
  · exact .inl ⟨rfl, rfl⟩
  · exact .inr ⟨e, others, rfl, rfl⟩

/-- Everything UPDATE can do. -/
theorem execUpdate_cases (et : ElementType) (data : List Byte) (s : State) :
    (s.phase = .unconfigured ∧ execUpdate et data s = raise .noInstance s) ∨
    (s.phase ≠ .unconfigured ∧ ∃ e others, updateErrors et s.phase = e :: others ∧
      execUpdate et data s = raiseOneOf e others s) ∨
    (s.phase = .absorbing ∧ et = .byteSequence ∧
      ((data = [] ∧ execUpdate et data s = .next (s.emit [statusCode .ok])) ∨
        (data ≠ [] ∧ execUpdate et data s = andThen (absorb data s) fun t => .next (t.emit [statusCode .ok])))) := by
  unfold execUpdate
  by_cases hu : s.phase = .unconfigured
  · exact .inl ⟨hu, if_pos hu⟩
  · rw [if_neg hu]
    refine .inr ?_
    rcases he : updateErrors et s.phase with _ | ⟨e, others⟩
    · have : s.phase = .absorbing ∧ et = .byteSequence := by
        cases hp : s.phase <;> cases et <;> simp_all [updateErrors]
      refine .inr ⟨this.1, this.2, ?_⟩
      cases data <;> simp
    · exact .inl ⟨hu, e, others, rfl, rfl⟩

/-- Everything DIGEST can do. -/
theorem execDigest_cases (s : State) :
    (s.phase = .unconfigured ∧ execDigest s = raise .noInstance s) ∨
    (s.phase = .finished ∧ execDigest s = .next (s.emit (statusCode .ok :: digestBytes s))) ∨
    (s.phase = .absorbing ∧
      execDigest s = andThen (finalize s) fun t => .next (t.emit (statusCode .ok :: digestBytes t))) := by
  unfold execDigest
  cases h : s.phase <;> simp

end Sys2Proof.Machine
end

