-- ==== Sys2Proof/Laws/Counter.lean ====
section
/-! SUPPORT. The byte counter: what counter addition answers, and when a compression completes. -/

namespace Sys2Proof.Machine


theorem addCounter_some {t0 t1 a b : Word} {n : Nat} (h : addCounter t0 t1 n = some (a, b)) :
    counterValue a b = counterValue t0 t1 + n ∧ counterValue t0 t1 + n < 2 ^ 64 ∧
      a.toNat = (t0.toNat + n) % 2 ^ 32 ∧ b.toNat = t1.toNat + (t0.toNat + n) / 2 ^ 32 := by
  unfold addCounter at h
  dsimp only at h
  split at h
  · cases h
  · obtain ⟨rfl, rfl⟩ := by simpa using h
    have := t0.isLt; have := t1.isLt
    simp only [counterValue, BitVec.toNat_ofNat]
    exact ⟨by omega, by omega, trivial, by omega⟩

theorem addCounter_of_lt {t0 t1 : Word} {n : Nat} (h : counterValue t0 t1 + n < 2 ^ 64) :
    addCounter t0 t1 n = some (countLow (counterValue t0 t1 + n), countHigh (counterValue t0 t1 + n)) := by
  have := t0.isLt; have := t1.isLt
  unfold counterValue at h
  unfold addCounter
  dsimp only
  rw [if_neg (by omega)]
  unfold countLow countHigh
  simp only [counterValue, Option.some.injEq, Prod.mk.injEq]
  constructor <;> apply BitVec.eq_of_toNat_eq <;> simp only [BitVec.toNat_ofNat] <;> omega

theorem addCounter_of_ge {t0 t1 : Word} {n : Nat} (h : 2 ^ 64 ≤ counterValue t0 t1 + n) : addCounter t0 t1 n = none := by
  have := t0.isLt; have := t1.isLt
  unfold counterValue at h
  unfold addCounter
  dsimp only
  rw [if_pos (by omega)]

theorem counter_lt (s : State) : s.counter < 2 ^ 64 := by
  have := s.t0.isLt; have := s.t1.isLt
  unfold State.counter counterValue; omega

theorem compressBlock_of_lt {b n f0 f1} {s : State} (h : s.counter + n < 2 ^ 64) :
    ∃ t, compressBlock b n f0 f1 s = .next t ∧ t.counter = s.counter + n ∧
      t = { s with t0 := countLow (s.counter + n), t1 := countHigh (s.counter + n), chain := compress s.chain b (countLow (s.counter + n)) (countHigh (s.counter + n)) f0 f1 } := by
  have ha := addCounter_of_lt h
  have e : compressBlock b n f0 f1 s = .next { s with t0 := countLow (s.counter + n), t1 := countHigh (s.counter + n), chain := compress s.chain b (countLow (s.counter + n)) (countHigh (s.counter + n)) f0 f1 } := by
    simp only [compressBlock, ha, State.counter]
  exact ⟨_, e, (addCounter_some ha).1, rfl⟩

theorem compressBlock_of_ge {b n f0 f1} {s : State} (h : 2 ^ 64 ≤ s.counter + n) :
    compressBlock b n f0 f1 s = .fault .counterOverflow := by
  have ha := addCounter_of_ge h
  unfold compressBlock; rw [ha]

@[simp] theorem State.emit_counter (s : State) (bytes : List Byte) : (s.emit bytes).counter = s.counter := rfl
@[simp] theorem State.consume_counter (s : State) (n : Nat) (rest : List StreamByte) :
    (s.consume n rest).counter = s.counter := rfl
@[simp] theorem holdBack_counter (data : List Byte) (s : State) : (holdBack data s).counter = s.counter := by
  simp only [State.counter, holdBack_t0, holdBack_t1]

end Sys2Proof.Machine
end

