-- ==== Sys2Proof/Laws/Buffer.lean ====
section
/-! SUPPORT. BUF, the valid prefix of it, and draining whole blocks against `chainOfBlocks`. -/

namespace Sys2Proof.Machine

/-! ### Whole blocks -/

theorem chainOfBlocks_of_le (k h t) (d : List Byte) (hd : d.length ≤ 64) : chainOfBlocks k h t d = (h, t, d) := by
  cases k with
  | zero => rfl
  | succ k => rw [chainOfBlocks, if_neg (by omega)]

theorem chainOfBlocks_fuel : ∀ (k k' : Nat) (h t) (d : List Byte), d.length ≤ 64 * (k + 1) → d.length ≤ 64 * (k' + 1) →
    chainOfBlocks k h t d = chainOfBlocks k' h t d := by
  intro k
  induction k with
  | zero => intro k' h t d h1 _; rw [chainOfBlocks_of_le _ _ _ _ (by omega), chainOfBlocks_of_le _ _ _ _ (by omega)]
  | succ k ih =>
    intro k' h t d h1 h2
    by_cases hd : d.length ≤ 64
    · rw [chainOfBlocks_of_le _ _ _ _ hd, chainOfBlocks_of_le _ _ _ _ hd]
    · cases k' with
      | zero => omega
      | succ k' =>
        rw [chainOfBlocks, chainOfBlocks, if_pos (by omega), if_pos (by omega)]
        exact ih _ _ _ _ (by simp; omega) (by simp; omega)

theorem drainBlocks_of_lt : ∀ (k : Nat) (d : List Byte) (s : State), s.counter + 64 * ((d.length - 1) / 64) < 2 ^ 64 → d.length ≤ 64 * (k + 1) →
    ∃ r, drainBlocks k d s = .next r ∧ chainOfBlocks k s.chain s.counter d = (r.1.chain, r.1.counter, r.2) ∧
      r.1.counter = s.counter + 64 * ((d.length - 1) / 64) ∧ r.2 = d.drop (64 * ((d.length - 1) / 64)) := by
  intro k
  induction k with
  | zero =>
    intro d s h hk
    refine ⟨_, rfl, rfl, ?_, ?_⟩
    · dsimp only; omega
    · dsimp only; rw [show (d.length - 1) / 64 = 0 by omega]; rfl
  | succ k ih =>
    intro d s h hk
    rw [drainBlocks]
    by_cases hd : d.length > 64
    · rw [if_pos hd]
      obtain ⟨t, ht, hc, ht'⟩ := compressBlock_of_lt (b := blockOf d) (n := 64) (f0 := noFlag) (f1 := noFlag) (s := s) (by omega)
      obtain ⟨r, hr, hcob, hrc, hrd⟩ := ih (d.drop 64) t (by simp; omega) (by simp; omega)
      refine ⟨r, by rw [ht]; exact hr, ?_, ?_, ?_⟩
      · rw [chainOfBlocks, if_pos hd, ← hcob, hc, ht']
      · rw [hrc, hc]; simp; omega
      · rw [hrd, List.drop_drop]; congr 1; simp; omega
    · rw [if_neg hd]
      refine ⟨_, rfl, ?_, ?_, ?_⟩
      · rw [chainOfBlocks, if_neg hd]
      · dsimp only; omega
      · dsimp only; rw [show (d.length - 1) / 64 = 0 by omega]; rfl

theorem drainBlocks_of_ge : ∀ (k : Nat) (d : List Byte) (s : State), 2 ^ 64 ≤ s.counter + 64 * ((d.length - 1) / 64) → d.length ≤ 64 * (k + 1) →
    drainBlocks k d s = .fault .counterOverflow := by
  intro k
  induction k with
  | zero => intro d s h hk; have := counter_lt s; omega
  | succ k ih =>
    intro d s h hk
    rw [drainBlocks]
    have := counter_lt s
    rw [if_pos (by omega)]
    by_cases h6 : s.counter + 64 < 2 ^ 64
    · obtain ⟨t, ht, hc, ht'⟩ := compressBlock_of_lt (b := blockOf d) (n := 64) (f0 := noFlag) (f1 := noFlag) (s := s) h6
      rw [ht]
      exact ih _ _ (by simp; omega) (by simp; omega)
    · rw [compressBlock_of_ge (by omega)]; rfl

/-! ### BUF -/

theorem bufWrite_getElem (b : Vector Byte 64) (st : Nat) (d : List Byte) (i : Nat) (h : i < 64) :
    (bufWrite b st d)[i] = if st ≤ i ∧ i < st + d.length then d.getD (i - st) 0 else b[i] := by
  unfold bufWrite; simp

theorem bufFreeFrom_getElem (b : Vector Byte 64) (len k : Nat) (i : Nat) (h : i < 64) :
    (bufFreeFrom b len k)[i] = if i < len then b[i] else Config.freeByte k i := by
  unfold bufFreeFrom; simp

theorem blockOf_getElem (d : List Byte) (i : Nat) (h : i < 64) : (blockOf d)[i] = d.getD i 0 := by
  unfold blockOf; simp

theorem buffered_getD (s : State) (i : Nat) (h : i < s.blen.val) : s.buffered.getD i 0 = s.buf[i]'(by omega) := by
  have h64 : i < 64 := by omega
  simp [State.buffered, List.getD_eq_getElem?_getD, h, h64]

@[simp] theorem buffered_length (s : State) : s.buffered.length = s.blen.val := by
  simp [State.buffered]; omega

theorem holdBack_buffered (d : List Byte) (s : State) (h : s.blen.val + d.length ≤ 64) :
    (holdBack d s).buffered = s.buffered ++ d ∧ (holdBack d s).blen.val = s.blen.val + d.length := by
  have hb : (holdBack d s).blen.val = s.blen.val + d.length := by
    rw [holdBack_blen]; simp [Fin.ofNat]; omega
  refine ⟨?_, hb⟩
  apply List.ext_getElem
  · rw [buffered_length, hb]; simp
  · intro i h1 h2
    rw [buffered_length] at h1
    have := buffered_getD _ i h1
    rw [← List.getD_eq_getElem (d := 0), this]
    simp only [holdBack_buf]
    rw [bufFreeFrom_getElem, if_pos (by omega), bufWrite_getElem]
    split
    · rename_i hc
      rw [List.getElem_append_right (by simp; omega), ← List.getD_eq_getElem (d := 0)]
      simp
    · rename_i hc
      rw [List.getElem_append_left (by simp; omega), ← List.getD_eq_getElem (d := 0), buffered_getD]
      omega

theorem bufWrite_eq_blockOf (s : State) (d : List Byte) (h : 64 - s.blen.val ≤ d.length) :
    bufWrite s.buf s.blen.val (d.take (64 - s.blen.val)) = blockOf (s.buffered ++ d) := by
  apply Vector.ext
  intro i hi
  rw [bufWrite_getElem, blockOf_getElem]
  have hl : (d.take (64 - s.blen.val)).length = 64 - s.blen.val := by simp; omega
  have hb : s.blen.val ≤ 64 := by omega
  rw [hl]
  split
  · rw [List.getD_append_right _ _ _ _ (by simp; omega), List.getD_eq_getElem?_getD, List.getD_eq_getElem?_getD, List.getElem?_take, if_pos (by omega)]; simp
  · rw [List.getD_append _ _ _ _ (by simp; omega), buffered_getD]; omega

end Sys2Proof.Machine
end

