-- ==== Sys2Proof/Laws/Bytes.lean ====
section
/-! SUPPORT. Byte order and header fields by their values: little-endian words, their bytes, and each field of a header as a
quotient and remainder. -/

namespace Sys2Proof

theorem toNat_append_eq {m n : Nat} (x : BitVec m) (y : BitVec n) : (x ++ y).toNat = x.toNat * 2 ^ n + y.toNat := by
  rw [BitVec.toNat_append, ← Nat.shiftLeft_add_eq_or_of_lt y.isLt, Nat.shiftLeft_eq]

theorem le32_eq_append (b0 b1 b2 b3 : Byte) : le32 b0 b1 b2 b3 = b3 ++ (b2 ++ (b1 ++ b0)) := by
  apply BitVec.eq_of_getLsbD_eq
  intro i hi
  have hz : ∀ (b : Byte) (j : Nat), 8 ≤ j → b.getLsbD j = false := fun b j hj => BitVec.getLsbD_of_ge _ _ hj
  simp only [le32, BitVec.getLsbD_or, BitVec.getLsbD_setWidth, BitVec.getLsbD_shiftLeft, BitVec.getLsbD_append,
    hi, decide_true, Bool.true_and]
  by_cases h0 : i < 8
  · have : i < 16 := by omega
    have : i < 24 := by omega
    simp [*]
  by_cases h1 : i < 16
  · have : i < 24 := by omega
    simp [h0, h1, this, hz b0 i (by omega)]; intro; omega
  by_cases h2 : i < 24
  · simp [h0, h1, h2, hz b0 i (by omega), hz b1 (i - 8) (by omega)]
    rw [show i - 16 = i - (8 + 8) by omega]; simp; intro; omega
  · simp [h0, h1, h2, hz b0 i (by omega), hz b1 (i - 8) (by omega), hz b2 (i - 16) (by omega)]
    intro; omega

theorem le32_toNat (b0 b1 b2 b3 : Byte) :
    (le32 b0 b1 b2 b3).toNat = b0.toNat + 2 ^ 8 * b1.toNat + 2 ^ 16 * b2.toNat + 2 ^ 24 * b3.toNat := by
  rw [le32_eq_append, toNat_append_eq, toNat_append_eq, toNat_append_eq]
  omega

theorem byteOf_toNat (w : Word) (k : Nat) : (byteOf w k).toNat = w.toNat / 2 ^ (8 * k) % 2 ^ 8 := by
  simp [byteOf, BitVec.extractLsb'_toNat, Nat.shiftRight_eq_div_pow]

theorem le32_byteOf (w : Word) : le32 (byteOf w 0) (byteOf w 1) (byteOf w 2) (byteOf w 3) = w := by
  apply BitVec.eq_of_toNat_eq
  simp only [le32_toNat, byteOf_toNat]
  have := w.isLt
  omega

theorem bytesLE_le32 (b0 b1 b2 b3 : Byte) : bytesLE (le32 b0 b1 b2 b3) = [b0, b1, b2, b3] := by
  have h := le32_toNat b0 b1 b2 b3
  have := b0.isLt; have := b1.isLt; have := b2.isLt; have := b3.isLt
  simp only [bytesLE, List.cons.injEq, and_true]
  refine ⟨?_, ?_, ?_, ?_⟩ <;> apply BitVec.eq_of_toNat_eq <;> simp only [byteOf_toNat, h] <;> omega

/-! ### Header fields -/

theorem extractLsb'_toNat_eq (h : Word) (lo n : Nat) : (h.extractLsb' lo n).toNat = h.toNat / 2 ^ lo % 2 ^ n := by
  simp [BitVec.extractLsb'_toNat, Nat.shiftRight_eq_div_pow]

theorem getLsbD_toNat_eq (h : Word) (k : Nat) : (h.getLsbD k).toNat = h.toNat / 2 ^ k % 2 := by
  rw [BitVec.getLsbD, Nat.toNat_testBit]

theorem hdrOPC_toNat (h : Word) : (hdrOPC h).toNat = h.toNat % 16 := by
  rw [hdrOPC, extractLsb'_toNat_eq, Nat.pow_zero, Nat.div_one]; rfl
theorem hdrDL_toNat (h : Word) : (hdrDL h).toNat = h.toNat / 2 ^ 4 % 2 ^ 8 := extractLsb'_toNat_eq h 4 8
theorem hdrKL_toNat (h : Word) : (hdrKL h).toNat = h.toNat / 2 ^ 12 % 2 ^ 8 := extractLsb'_toNat_eq h 12 8
theorem hdrSL_toNat (h : Word) : (hdrSL h).toNat = h.toNat / 2 ^ 22 % 2 ^ 4 := extractLsb'_toNat_eq h 22 4
theorem hdrPL_toNat (h : Word) : (hdrPL h).toNat = h.toNat / 2 ^ 26 % 2 ^ 4 := extractLsb'_toNat_eq h 26 4
theorem hdrET_toNat (h : Word) : (hdrET h).toNat = h.toNat / 2 ^ 4 % 2 ^ 2 := extractLsb'_toNat_eq h 4 2
theorem hdrLEN_toNat (h : Word) : (hdrLEN h).toNat = h.toNat / 2 ^ 6 % 2 ^ 26 := extractLsb'_toNat_eq h 6 26
theorem hdrSP_toNat (h : Word) : (hdrSP h).toNat = h.toNat / 2 ^ 20 % 2 := getLsbD_toNat_eq h 20
theorem hdrPP_toNat (h : Word) : (hdrPP h).toNat = h.toNat / 2 ^ 21 % 2 := getLsbD_toNat_eq h 21
theorem hdrUF_toNat (h : Word) : (hdrUF h).toNat = h.toNat / 2 ^ 30 % 2 := getLsbD_toNat_eq h 30
theorem hdrRSV_toNat (h : Word) : (hdrRSV h).toNat = h.toNat / 2 ^ 31 % 2 := getLsbD_toNat_eq h 31

/-- A CONFIG header as a sum of its fields. -/
theorem configHeader_toNat (dl : BitVec 8) (key : List Byte) (salt pers : Option (List Byte)) (uf : Bool) :
    (configHeader dl key salt pers uf).toNat =
      1 + 2 ^ 4 * dl.toNat + 2 ^ 12 * (key.length % 2 ^ 8) + 2 ^ 20 * salt.isSome.toNat + 2 ^ 21 * pers.isSome.toNat
        + 2 ^ 22 * ((salt.getD []).length % 2 ^ 4) + 2 ^ 26 * ((pers.getD []).length % 2 ^ 4) + 2 ^ 30 * uf.toNat := by
  unfold configHeader
  simp only [toNat_append_eq, lengthField, bit, BitVec.toNat_ofBool, BitVec.toNat_ofNat]
  omega

/-- An UPDATE header as a sum of its fields. -/
theorem updateHeader_toNat (et : ElementType) (data : List Byte) :
    (updateHeader et data).toNat = 2 + 2 ^ 4 * (elementTypeBits et).toNat + 2 ^ 6 * (data.length % 2 ^ 26) := by
  unfold updateHeader
  simp only [toNat_append_eq, lengthField, BitVec.toNat_ofNat]
  omega

end Sys2Proof
end

