-- ==== Sys2Proof/Laws/Decode.lean ====
section
/-! SUPPORT. The header decode and the length decode by opcode, and the decoder on a header's bytes. -/

namespace Sys2Proof

theorem payloadLength_config {h : Word} (ho : h.toNat % 16 = 1) :
    payloadLength h = (hdrKL h).toNat + (hdrSP h).toNat * (hdrSL h).toNat + (hdrPP h).toNat * (hdrPL h).toNat := by
  unfold payloadLength; rw [hdrOPC_toNat, ho]; rfl

theorem payloadLength_update {h : Word} (ho : h.toNat % 16 = 2) : payloadLength h = (hdrLEN h).toNat := by
  unfold payloadLength; rw [hdrOPC_toNat, ho]; rfl

theorem payloadLength_other {h : Word} (h1 : h.toNat % 16 ≠ 1) (h2 : h.toNat % 16 ≠ 2) : payloadLength h = 0 := by
  unfold payloadLength; rw [hdrOPC_toNat]; split
  · contradiction
  · contradiction
  · rfl

theorem headerKind_config {h : Word} (ho : h.toNat % 16 = 1) :
    headerKind h =
      if hdrRSV h then .illegal .configReservedBit
      else if !hdrSP h && hdrSL h != 0 then .illegal .saltLengthWithoutSalt
      else if !hdrPP h && hdrPL h != 0 then .illegal .persLengthWithoutPers
      else .config := by
  unfold headerKind; rw [hdrOPC_toNat, ho]; rfl

theorem headerKind_update {h : Word} (ho : h.toNat % 16 = 2) : headerKind h = .update := by
  unfold headerKind; rw [hdrOPC_toNat, ho]; rfl

theorem headerKind_digest {h : Word} (ho : h.toNat % 16 = 3) :
    headerKind h = if h.extractLsb' 4 28 != 0 then .illegal .digestReservedBits else .digest := by
  unfold headerKind; rw [hdrOPC_toNat, ho]; rfl

theorem headerKind_reserved {h : Word} (h1 : h.toNat % 16 ≠ 1) (h2 : h.toNat % 16 ≠ 2) (h3 : h.toNat % 16 ≠ 3) :
    headerKind h = .illegal .reservedOpcode := by
  unfold headerKind; rw [hdrOPC_toNat]; split
  · contradiction
  · contradiction
  · contradiction
  · rfl

/-- A header that announces a command carries that command's opcode. -/
theorem opcode_of_headerKind {h : Word} :
    (headerKind h = .config → h.toNat % 16 = 1) ∧ (headerKind h = .update → h.toNat % 16 = 2) ∧
      (headerKind h = .digest → h.toNat % 16 = 3) := by
  by_cases h1 : h.toNat % 16 = 1
  · rw [headerKind_config h1]; simp only [h1]; split_ifs <;> simp
  by_cases h2 : h.toNat % 16 = 2
  · rw [headerKind_update h2]; simp [h2]
  by_cases h3 : h.toNat % 16 = 3
  · rw [headerKind_digest h3]; simp only [h3]; split_ifs <;> simp
  · rw [headerKind_reserved h1 h2 h3]; simp

/-- The decoder on a header's four bytes and what follows them. -/
theorem decode_bytesLE (h : Word) (after : List Byte) :
    decode (bytesLE h ++ after) =
      if after.length < payloadLength h then .incomplete
      else decodeFrame h (after.take (payloadLength h)) (after.drop (payloadLength h)) := by
  simp [decode, bytesLE, le32_byteOf]

theorem frameLength_bytesLE (h : Word) (after : List Byte) : frameLength (bytesLE h ++ after) = totalLength h := by
  simp [frameLength, bytesLE, le32_byteOf]

/-- Bytes either begin with a whole header or are fewer than four. -/
theorem bytes_cases (bytes : List Byte) :
    (bytes.length < 4 ∧ decode bytes = .incomplete ∧ frameLength bytes = 4) ∨
      ∃ h after, bytes = bytesLE h ++ after := by
  match bytes with
  | [] => exact .inl ⟨by decide, rfl, rfl⟩
  | [_] => exact .inl ⟨by simp, rfl, rfl⟩
  | [_, _] => exact .inl ⟨by simp, rfl, rfl⟩
  | [_, _, _] => exact .inl ⟨by simp, rfl, rfl⟩
  | b0 :: b1 :: b2 :: b3 :: after => exact .inr ⟨le32 b0 b1 b2 b3, after, by rw [bytesLE_le32]; rfl⟩

@[simp] theorem bytesLE_length (w : Word) : (bytesLE w).length = 4 := rfl

/-- The decoder waits exactly while bytes of the command are missing. -/
theorem decode_incomplete_iff (bytes : List Byte) : decode bytes = .incomplete ↔ bytes.length < frameLength bytes := by
  obtain ⟨hl, hd, hf⟩ | ⟨h, after, rfl⟩ := bytes_cases bytes
  · simp [hd, hf, hl]
  · rw [decode_bytesLE, frameLength_bytesLE, totalLength, List.length_append, bytesLE_length, Nat.add_lt_add_iff_left]
    split
    · simp [*]
    · simp only [*, iff_false]
      unfold decodeFrame
      split <;> simp

end Sys2Proof
end

