-- ==== Sys2Proof/Laws/PerInstr.lean ====
section
/-! SUPPORT. The per-instruction family `EncodedLength`: how many bytes the encoding of each command takes (30_encoding.md R70,
R83). -/

namespace Sys2Proof.Laws.EncodedLength

open Sys2Proof

/-- The encoding is four header bytes and the payload. -/
def Statement (i : Instr) : Prop := (encode i).length = 4 + (payloadOf i).length

theorem config (dl : BitVec 8) (key : List Byte) (salt pers : Option (List Byte)) (uf : Bool) :
    Statement (.config dl key salt pers uf) := by
  simp only [Statement, encode, bytesLE, List.length_append, List.length_cons, List.length_nil]

theorem update (et : ElementType) (data : List Byte) : Statement (.update et data) := by
  simp only [Statement, encode, bytesLE, List.length_append, List.length_cons, List.length_nil]

theorem digest : Statement .digest := by
  simp only [Statement, encode, bytesLE, List.length_append, List.length_cons, List.length_nil]

end Sys2Proof.Laws.EncodedLength
end

