-- ==== Sys2Proof/Laws/Step.lean ====
section
/-! SUPPORT. The command stream, the fetch and the step: what each can do, said once. -/

namespace Sys2Proof.Machine

/-! ### Stretches of the stream -/

@[simp] theorem plainBytes_length (l : List StreamByte) : (plainBytes l).length = l.length := by simp [plainBytes]
@[simp] theorem plainBytes_append (l m : List StreamByte) : plainBytes (l ++ m) = plainBytes l ++ plainBytes m := by
  simp [plainBytes]
@[simp] theorem plainBytes_tagged (p : Nat) (b : List Byte) : plainBytes (tagged p b) = b := by
  simp [plainBytes, tagged, Function.comp_def]
@[simp] theorem tagged_length (p : Nat) (b : List Byte) : (tagged p b).length = b.length := by simp [tagged]
@[simp] theorem tagged_append (p : Nat) (a b : List Byte) : tagged p (a ++ b) = tagged p a ++ tagged p b := by simp [tagged]
@[simp] theorem parserBytes_header (l : List StreamByte) : parserBytes (.header l) = l := rfl
@[simp] theorem parserBytes_payload (h l : List StreamByte) : parserBytes (.payload h l) = h ++ l := rfl

/-- The parser that holds some bytes holds exactly them. -/
@[simp] theorem parserBytes_parserHolding (l : List StreamByte) : parserBytes (parserHolding l) = l := by
  unfold parserHolding; split <;> simp

theorem oneProducer_iff (l : List StreamByte) : oneProducer l = true ↔ ∀ a ∈ l, ∀ b ∈ l, a.producer = b.producer := by
  cases l with
  | nil => simp [oneProducer]
  | cons x xs =>
    simp only [oneProducer, List.all_eq_true, beq_iff_eq]
    constructor
    · intro h a ha b hb
      have hx : ∀ c ∈ x :: xs, c.producer = x.producer := by
        intro c hc
        rcases List.mem_cons.1 hc with rfl | hc
        · rfl
        · exact h c hc
      rw [hx a ha, hx b hb]
    · intro h c hc
      exact h c (List.mem_cons_of_mem _ hc) x List.mem_cons_self

@[simp] theorem oneProducer_tagged (p : Nat) (b : List Byte) : oneProducer (tagged p b) = true := by
  rw [oneProducer_iff]; simp [tagged]

/-! ### Fetch -/

/-- Everything the fetch can find at the head of the bytes that have arrived. -/
theorem fetch_cases (l : List StreamByte) :
    (oneProducer (l.take (frameLength (plainBytes l))) = false ∧ fetch l = .torn) ∨
    (oneProducer (l.take (frameLength (plainBytes l))) = true ∧
      ((l.length < frameLength (plainBytes l) ∧ fetch l = .wait (parserHolding l)) ∨
        (frameLength (plainBytes l) ≤ l.length ∧
          ((∃ why rest, decode (plainBytes l) = .illegal why rest ∧
              fetch l = .illegal why (frameLength (plainBytes l)) (l.drop (frameLength (plainBytes l)))) ∨
            ∃ i rest, decode (plainBytes l) = .command i rest ∧
              fetch l = .command i (frameLength (plainBytes l)) (l.drop (frameLength (plainBytes l))))))) := by
  unfold fetch
  have hi := decode_incomplete_iff (plainBytes l)
  rw [plainBytes_length] at hi
  cases ho : oneProducer (l.take (frameLength (plainBytes l))) with
  | false => exact .inl ⟨rfl, by simp [ho]⟩
  | true =>
    refine .inr ⟨rfl, ?_⟩
    cases hd : decode (plainBytes l) with
    | incomplete => exact .inl ⟨hi.1 hd, by simp [ho]⟩
    | illegal why rest =>
      exact .inr ⟨by rw [hd] at hi; simpa using hi, .inl ⟨why, rest, rfl, by simp [ho]⟩⟩
    | command i rest =>
      exact .inr ⟨by rw [hd] at hi; simpa using hi, .inr ⟨i, rest, rfl, by simp [ho]⟩⟩

/-- The fetch of one producer's whole header and payload. -/
theorem fetch_frame (p : Nat) (h : Word) (payload : List Byte) (after : List StreamByte)
    (hl : payload.length = payloadLength h) :
    fetch (tagged p (bytesLE h ++ payload) ++ after) =
      match headerKind h with
      | .config => .command (configOperands h payload) (4 + payload.length) after
      | .update => .command (.update (elementTypeOf (hdrET h)) payload) (4 + payload.length) after
      | .digest => .command .digest (4 + payload.length) after
      | .illegal why => .illegal why (4 + payload.length) after := by
  have hb : plainBytes (tagged p (bytesLE h ++ payload) ++ after) = bytesLE h ++ (payload ++ plainBytes after) := by simp
  have hn : (tagged p (bytesLE h ++ payload)).length = 4 + payload.length := by simp
  unfold fetch
  simp only [hb, frameLength_bytesLE, totalLength, ← hl, decode_bytesLE, List.length_append,
    List.take_left' hn, List.drop_left' hn, oneProducer_tagged, if_true]
  rw [if_neg (by omega), decodeFrame, List.take_left' rfl]
  cases headerKind h <;> rfl

/-! ### The step -/

/-- Everything a step can do. -/
theorem step_cases (s : State) :
    (fetch (parserBytes s.parser ++ s.cmdIn) = .torn ∧ step s = .fault .framingViolation) ∨
    (∃ held, fetch (parserBytes s.parser ++ s.cmdIn) = .wait held ∧ step s = .next (s.hold held)) ∨
    (∃ why len rest, fetch (parserBytes s.parser ++ s.cmdIn) = .illegal why len rest ∧
      step s = raise .illegalCommand (s.consume len rest)) ∨
    ∃ i len rest, fetch (parserBytes s.parser ++ s.cmdIn) = .command i len rest ∧ step s = exec i (s.consume len rest) := by
  unfold step
  cases fetch (parserBytes s.parser ++ s.cmdIn) <;> simp

end Sys2Proof.Machine
end

