-- ==== Sys2Proof/Tests/Slice0.lean ====
section
/-! SUPPORT. Tests whose expected results are the spec's own (95_test_vectors.md and the examples of the rules), and a witness
for the hypotheses of each statement. -/

namespace Sys2Proof.Tests

open Sys2Proof.Machine

/-! ### Helpers -/

/-- The next state of an outcome. -/
def nextOf : Host.Outcome State Fault Refusal → Option State
  | .next s => some s
  | .fault _ => none
  | .refused _ => none

/-- The fault of an outcome. -/
def faultOf : Host.Outcome State Fault Refusal → Option Fault
  | .next _ => none
  | .fault r => some r
  | .refused _ => none

/-- `n` zero bytes. -/
def zeros (n : Nat) : List Byte := List.replicate n 0

/-- CHAIN after `CONFIG dl=32` (V12). -/
def chain32 : Vector Word 8 :=
  #v[0x6b08e647, 0xbb67ae85, 0x3c6ef372, 0xa54ff53a, 0x510e527f, 0x9b05688c, 0x1f83d9ab, 0x5be0cd19]

/-- The engine after `CONFIG dl=32`. -/
def fresh : State := { State.reset with phase := .absorbing, dlen := 32, chain := chain32 }

/-- The engine after `CONFIG dl=32` and `UPDATE "abc"` (P1). -/
def abc : State := { fresh with buf := blockOf [0x61, 0x62, 0x63], blen := 3 }

/-- An engine whose counter stands `64 * k` below 2^64, with a full BUF (V16). -/
def nearTop (k : Nat) : State := { fresh with t0 := BitVec.ofNat 32 (2 ^ 32 - 64 * k), t1 := 0xffffffff, blen := 64 }

/-- An engine whose digest is cached; its CHAIN is zero, so RESULT is. -/
def done : State := { State.reset with phase := .finished, dlen := 2, f0 := 0xffffffff }

/-- `s` with bytes of one producer on its command stream. -/
def given (s : State) (bytes : List Byte) : State := { s with cmdIn := tagged 0 bytes }

/-! ### Well-formedness: an ill-formed term for each check, and the longest well-formed one -/

theorem test_wf_key_too_long : (Instr.config 32 (zeros 256) none none false).wf = false := by decide +kernel
theorem test_wf_key_longest : (Instr.config 32 (zeros 255) none none false).wf = true := by decide +kernel
theorem test_wf_salt_too_long : (Instr.config 32 [] (some (zeros 16)) none false).wf = false := by decide
theorem test_wf_pers_too_long : (Instr.config 32 [] none (some (zeros 16)) false).wf = false := by decide
theorem test_wf_salt_pers_longest : (Instr.config 32 [] (some (zeros 15)) (some (zeros 15)) true).wf = true := by decide
theorem test_wf_data_too_long (n : Nat) (h : 2 ^ 26 ≤ n) : (Instr.update .byteSequence (List.replicate n 0)).wf = false := by
  simp only [Instr.wf, dataFits, List.length_replicate, decide_eq_false_iff_not]
  omega
theorem test_wf_digest : Instr.digest.wf = true := by decide

/-! ### Decoding: words written out from the spec's patterns (30_encoding.md R72, R74, R76, R88) -/

-- 0 UF PL   SL   PP SP KL       DL       OPC, for DL = 16, KL = 2, SL = 1, PL = 3, UF = 1
theorem test_decode_config_fields :
    decode (bytesLE (0b0#1 ++ 0b1#1 ++ 0b0011#4 ++ 0b0001#4 ++ 0b1#1 ++ 0b1#1 ++ 0b00000010#8 ++ 0b00010000#8 ++ 0b0001#4)
      ++ [0xa1, 0xa2, 0xb1, 0xc1, 0xc2, 0xc3, 0xff]) =
      .command (.config 16 [0xa1, 0xa2] (some [0xb1]) (some [0xc1, 0xc2, 0xc3]) true) [0xff] := by decide
-- LEN ET OPC, for each ET
theorem test_decode_update_text :
    decode (bytesLE (0b00000000000000000000000011#26 ++ 0b01#2 ++ 0b0010#4) ++ [0x61, 0x62, 0x63]) =
      .command (.update .text [0x61, 0x62, 0x63]) [] := by decide
theorem test_decode_update_et2 :
    decode (bytesLE (0b00000000000000000000000000#26 ++ 0b10#2 ++ 0b0010#4)) = .command (.update .nonByte2 []) [] := by decide
theorem test_decode_update_et3 :
    decode (bytesLE (0b00000000000000000000000000#26 ++ 0b11#2 ++ 0b0010#4)) = .command (.update .nonByte3 []) [] := by decide
theorem test_decode_update_abc :
    decode [0xc2, 0x00, 0x00, 0x00, 0x61, 0x62, 0x63] = .command (.update .byteSequence [0x61, 0x62, 0x63]) [] := by decide
theorem test_decode_digest : decode [0x03, 0x00, 0x00, 0x00] = .command .digest [] := by decide
-- V17, V21: the illegal headers, with what follows them
theorem test_decode_config_rsv : decode [0x01, 0x02, 0x00, 0x80] = .illegal .configReservedBit [] := by decide
theorem test_decode_config_sl_without_sp : decode [0x01, 0x02, 0x00, 0x02, 0x03] = .illegal .saltLengthWithoutSalt [0x03] := by decide
theorem test_decode_config_pl_without_pp : decode [0x01, 0x02, 0x00, 0x24] = .illegal .persLengthWithoutPers [] := by decide
theorem test_decode_digest_reserved : decode [0x13, 0x00, 0x00, 0x00] = .illegal .digestReservedBits [] := by decide
theorem test_decode_opcode_0 : decode [0x00, 0x00, 0x00, 0x00] = .illegal .reservedOpcode [] := by decide
theorem test_decode_opcode_15 : decode [0xff, 0xff, 0xff, 0xff, 0x01] = .illegal .reservedOpcode [0x01] := by decide
theorem test_decode_incomplete : decode [0x01, 0x02, 0x02, 0x00, 0xaa] = .incomplete := by decide
-- R88: the encodings of the commands
theorem test_encode_config :
    encode (.config 32 [] (some (zeros 8)) (some (zeros 8)) false) = [0x01, 0x02, 0x30, 0x22] ++ zeros 16 := by decide
theorem test_encode_update : encode (.update .byteSequence [0x41]) = [0x42, 0x00, 0x00, 0x00, 0x41] := by decide
theorem test_encode_digest : encode .digest = [0x03, 0x00, 0x00, 0x00] := by decide

/-! ### The host's two questions -/

theorem test_table_config : decodeTableWord 32 0x00001201 = some (.config 32 [0] none none false) := by decide
theorem test_table_update : decodeTableWord 32 0x000000c2 = some (.update .byteSequence [0, 0, 0]) := by decide
theorem test_table_digest : decodeTableWord 32 0x00000003 = some .digest := by decide
theorem test_fetch_word_runs :
    (nextOf (step (State.reset.withFetchWord 32 0x00000201))).map (fun t => (t.phase, t.out, t.pos, t.cmdIn)) =
      some (.absorbing, [0x00], 4, []) := by decide

/-! ### COMPRESS (V10, V11, V13) -/

theorem test_rotr_12 : rotr 0x12345678 12 = 0x67812345 := by decide
theorem test_rotr_16 : rotr 0x80000000 16 = 0x00008000 := by decide
theorem test_mix_ones :
    mixG 0xffffffff 0xffffffff 0xffffffff 0xffffffff 0xffffffff 0xffffffff = (0x000fffdc, 0x3db81be4, 0xdc020dfe, 0xdc000dff) := by
  decide
theorem test_mix_distinct : mixG 1 2 3 4 5 6 = (0x001000ce, 0x879c3839, 0xce0c1c03, 0xce001c00) := by decide

-- P2, the block 00..3f, in which every message word is different
theorem test_compress_p2 :
    compress #v[0x48812d20, 0x8755e364, 0xb9ad1d3b, 0xe3e5c5ab, 0xa09a8c09, 0x68ba9afd, 0xdcdae2ca, 0x6da3cdbc]
        (Vector.ofFn fun i : Fin 64 => BitVec.ofNat 8 i.val) 128 0 0 0 =
      #v[0xb9f1f760, 0x5c43d122, 0x506df646, 0xe483d1e9, 0xbc0b370c, 0x53f5a2d3, 0x7b746d4a, 0xb623f1d4] := by decide +kernel

/-! ### CONFIG (V12, V17) -/

theorem test_config_chain :
    (nextOf (exec (.config 20 [1, 2, 3, 4, 5] (some [1, 2, 3, 4, 5, 6, 7, 8])
      (some [0x10, 0x11, 0x12, 0x13, 0x14, 0x15, 0x16, 0x17]) false) State.reset)).map (fun t => (t.chain, t.blen.val)) =
      some (#v[0x6b08e373, 0xbb67ae85, 0x3c6ef372, 0xa54ff53a, 0x550d507e, 0x93026e89, 0x0c91c8bb, 0x4cf6d80d], 64) := by decide
theorem test_config_empty_salt : exec (.config 32 [] (some []) none false) State.reset = .next { State.reset with out := [0x03] } := rfl

/-! ### UPDATE (V16, V18, V19) -/

-- 65 bytes: one compression, one byte held back
theorem test_update_holds_back :
    (nextOf (exec (.update .byteSequence (zeros 65)) fresh)).map (fun t => (t.blen.val, t.t0, t.t1, t.out)) =
      some (1, 64, 0, [0x00]) := by decide +kernel
-- NoInstance comes before InvalidInputType
theorem test_update_no_instance : exec (.update .text [0x61, 0x62, 0x63]) State.reset = .next { State.reset with out := [0x81] } := rfl
theorem test_counter_carry : addCounter 0xffffffc0 0 64 = some (0, 1) := by decide
theorem test_counter_overflow : addCounter 0xffffffc0 0xffffffff 64 = none := by decide

/-! ### DIGEST (V2, P1) -/

-- The digest of "abc", with CHAIN as V13 (a) traces it
theorem test_digest_abc :
    (nextOf (exec .digest abc)).map (fun t => (t.chain, t.t0, t.out)) =
      some (#v[0x8c5e8c50, 0xe2147c32, 0xa32ba7e1, 0x2f45eb4e, 0x208b4537, 0x293ad69e, 0x4c9b994d, 0x82596786], 3,
        [0x00, 0x50, 0x8c, 0x5e, 0x8c, 0x32, 0x7c, 0x14, 0xe2, 0xe1, 0xa7, 0x2b, 0xa3, 0x4e, 0xeb, 0x45, 0x2f, 0x37, 0x45, 0x8b,
          0x20, 0x9e, 0xd6, 0x3a, 0x29, 0x4d, 0x99, 0x9b, 0x4c, 0x86, 0x67, 0x59, 0x82]) := by decide +kernel

/-! ### Illegal commands and the host side (V21, V22) -/

-- IllegalCommand comes before NoInstance, and four bytes are consumed
theorem test_illegal_before_no_instance :
    (nextOf (step (given State.reset [0x13, 0x00, 0x00, 0x00, 0x03]))).map (fun t => (t.out, t.pos, t.cmdIn)) =
      some ([0x80], 4, tagged 0 [0x03]) := by decide
theorem test_hex : hexDigest [0xff, 0x00, 0x1a] = ['f', 'f', '0', '0', '1', 'a'] := by decide
theorem test_host_new : hostNew none [] none none false = .config 32 [] none none false := by decide

/-! ### Witnesses: states and operands that meet the hypotheses of each statement -/

theorem wit_SpecExampleHeadersDecode : (zeros 32).length = 32 ∧ (zeros 8).length = 8 ∧ (zeros 64).length = 64 := by decide

theorem wit_DecodeOfEncodeIsTheCommand :
    (Instr.config 255 (zeros 255) (some (zeros 15)) (some []) true).wf = true ∧ (Instr.update .nonByte3 [7]).wf = true ∧
      Instr.digest.wf = true := by decide +kernel

theorem wit_EncodeOfDecodeIsTheBytes :
    decode [0x01, 0x12, 0x00, 0x00, 0xaa, 0x03] = .command (.config 32 [0xaa] none none false) [0x03] := by decide

theorem wit_LengthComesFromTheHeader :
    (0xffffffff1#32).toNat % 16 = 1 ∧ (0xffffffc2#32).toNat % 16 = 2 ∧ (0xffffffff#32).toNat % 16 ≠ 1 ∧
      (0xffffffff#32).toNat % 16 ≠ 2 := by decide

/-- A whole command on the stream, and one that stands partly in the parser. -/
theorem wit_StepRunsTheDecodedCommand :
    (given fresh (encode .digest ++ [1])).arrived = tagged 0 (encode .digest) ++ tagged 0 [1] ∧
    State.arrived { fresh with
      parser := .payload (tagged 5 [0x82, 0, 0, 0]) (tagged 5 [0x61])
      cmdIn := tagged 5 [0x62] ++ tagged 6 [3] } =
        tagged 5 (encode (.update .byteSequence [0x61, 0x62])) ++ tagged 6 [3] := by decide

theorem wit_ReservedOpcodeIsIllegal :
    (given fresh (bytesLE 0xffffffff)).arrived = tagged 0 (bytesLE 0xffffffff) ++ [] ∧ (0xffffffff#32).toNat % 16 ≠ 1 ∧
      (0xffffffff#32).toNat % 16 ≠ 2 ∧ (0xffffffff#32).toNat % 16 ≠ 3 ∧
    (given done (bytesLE 0)).arrived = tagged 0 (bytesLE 0) ++ [] ∧ (0#32).toNat % 16 = 0 := by decide

/-- Each reserved form: RSV with a key byte, SL without SP, PL without PP, and a DIGEST with H[4]. -/
theorem wit_ReservedFieldsAreIllegal :
    ((given fresh (bytesLE 0x80001201 ++ [9])).arrived = tagged 0 (bytesLE 0x80001201 ++ [9]) ++ [] ∧
      (0x80001201#32).toNat % 16 = 1 ∧ (0x80001201#32).getLsbD 31 = true ∧ (0x80001201#32).toNat / 2 ^ 12 % 256 = 1) ∧
    ((0x00400001#32).toNat % 16 = 1 ∧ (0x00400001#32).getLsbD 20 = false ∧ (0x00400001#32).toNat / 2 ^ 22 % 16 ≠ 0) ∧
    ((0x04000001#32).toNat % 16 = 1 ∧ (0x04000001#32).getLsbD 21 = false ∧ (0x04000001#32).toNat / 2 ^ 26 % 16 ≠ 0) ∧
    ((given done (bytesLE 0x13)).arrived = tagged 0 (bytesLE 0x13 ++ []) ++ [] ∧ (0x13#32).toNat % 16 = 3 ∧
      (0x13#32).toNat / 16 ≠ 0) := by decide

/-- No byte, one header byte less than four, and one payload byte less than announced. -/
theorem wit_IncompleteCommandWaitsForEver :
    (fresh.arrived = tagged 0 [] ∧ ([] : List Byte).length < frameLength []) ∧
    ((given fresh [1, 2, 3]).arrived = tagged 0 [1, 2, 3] ∧ [1, 2, 3].length < frameLength [1, 2, 3]) ∧
    ((given fresh [0x82, 0, 0, 0, 1]).arrived = tagged 0 [0x82, 0, 0, 0, 1] ∧
      [0x82, 0, 0, 0, 1].length < frameLength [0x82, 0, 0, 0, 1]) := by decide

/-- Two producers inside one command fault; between two commands they do not. -/
theorem wit_InterleavedProducersFault :
    faultOf (step { fresh with cmdIn := tagged 0 [3, 0] ++ tagged 1 [0, 0] }) = some .framingViolation ∧
    faultOf (step { State.reset with cmdIn := tagged 0 [3, 0, 0, 0] ++ tagged 1 [3, 0, 0, 0] }) = none := by decide

theorem wit_StepTakesOneCommand :
    (nextOf (step (given State.reset [3, 0]))).isSome ∧ (nextOf (step (given State.reset [3, 0, 0, 0, 9]))).isSome := by decide

theorem wit_StreamRunsAsTheCommandSequence :
    (∀ i ∈ [Instr.config 32 [] none none false, .update .byteSequence [0x61], .digest], i.wf = true) ∧
    State.reset.parser = .header [] ∧
    (given State.reset ([Instr.digest, .digest].flatMap encode)).cmdIn = streamOf 0 [.digest, .digest] := by decide

/-- The least and the greatest legal operands. -/
theorem legal_least : ConfigLegal 1 [] none none false := by simp [ConfigLegal]
theorem legal_greatest : ConfigLegal 32 (zeros 32) (some (zeros 8)) (some (zeros 8)) false := by simp [ConfigLegal, zeros]

theorem wit_ConfigStartsAnInstance :
    ConfigLegal 1 [] none none false ∧ ConfigLegal 32 (zeros 32) (some (zeros 8)) (some (zeros 8)) false :=
  ⟨legal_least, legal_greatest⟩

theorem wit_FailedConfigChangesNoRegister :
    ¬ ConfigLegal 0 [] none none false ∧ ¬ ConfigLegal 33 [] none none false ∧ ¬ ConfigLegal 32 (zeros 33) none none false ∧
      ¬ ConfigLegal 32 [] (some (zeros 7)) none false ∧ ¬ ConfigLegal 32 [] none (some (zeros 9)) false ∧
      ¬ ConfigLegal 32 [] none none true := by
  simp [ConfigLegal, zeros]

/-- For each error, operands to which it applies and no other does. -/
theorem wit_SingleConfigErrorIsReported :
    (ConfigErrorApplies .invalidDigestLength 0 [] none none false ∧
      ∀ e, ConfigErrorApplies e 0 [] none none false → e = .invalidDigestLength) ∧
    (ConfigErrorApplies .invalidKeyLength 32 (zeros 33) none none false ∧
      ∀ e, ConfigErrorApplies e 32 (zeros 33) none none false → e = .invalidKeyLength) ∧
    (ConfigErrorApplies .invalidSaltLength 32 [] (some []) none false ∧
      ∀ e, ConfigErrorApplies e 32 [] (some []) none false → e = .invalidSaltLength) ∧
    (ConfigErrorApplies .invalidPersonalizationLength 32 [] none (some (zeros 9)) false ∧
      ∀ e, ConfigErrorApplies e 32 [] none (some (zeros 9)) false → e = .invalidPersonalizationLength) ∧
    (ConfigErrorApplies .unexpectedConfigField 32 [] none none true ∧
      ∀ e, ConfigErrorApplies e 32 [] none none true → e = .unexpectedConfigField) := by
  refine ⟨⟨?_, ?_⟩, ⟨?_, ?_⟩, ⟨?_, ?_⟩, ⟨?_, ?_⟩, ⟨?_, ?_⟩⟩ <;>
    first
      | (intro e; cases e <;> simp [ConfigErrorApplies, zeros])
      | simp [ConfigErrorApplies, zeros]

/-- Several errors, and one, for CONFIG and for UPDATE. -/
theorem wit_EveryApplicableErrorCanBePicked :
    (configErrors 0 (zeros 33) none none false = [.invalidDigestLength, .invalidKeyLength] ∧
      configErrors 32 [] none none true = [.unexpectedConfigField]) ∧
    (updateErrors .text .finished = [.invalidInputType, .updateAfterFinalize] ∧
      updateErrors .text .absorbing = [.invalidInputType] ∧ done.phase = .finished ∧ fresh.phase = .absorbing) := by decide

theorem wit_DigestLengthsGiveDifferentChains :
    ConfigLegal 1 [] none none false ∧ ConfigLegal 32 (zeros 32) (some (zeros 8)) (some (zeros 8)) false ∧
    (1 : BitVec 8) ≠ 32 ∧ (∃ t, exec (.config 1 [] none none false) fresh = .next t) ∧
    (∃ u, exec (.config 32 (zeros 32) (some (zeros 8)) (some (zeros 8)) false) fresh = .next u) :=
  ⟨legal_least, legal_greatest, by decide, ⟨_, rfl⟩, ⟨_, rfl⟩⟩

theorem wit_RotrMovesEveryBit : 0 < 1 ∧ 1 < 32 ∧ 0 < 31 ∧ 31 < 32 ∧ (rotr 1 1).getLsbD 31 = true := by decide

theorem wit_MixesOnDisjointWordsCommute : ([0, 4, 8, 12, 1, 5, 9, 13] : List (Fin 16)).Nodup := by decide

theorem wit_UpdatePreconditions :
    State.reset.phase = .unconfigured ∧ fresh.phase = .absorbing ∧ done.phase = .finished ∧
      ElementType.text ≠ .byteSequence := by decide

theorem wit_ZeroLengthUpdateChangesNothing :
    State.reset.phase = .unconfigured ∧ ElementType.text ≠ .byteSequence ∧ fresh.phase = .absorbing ∧ done.phase = .finished := by decide

/-- 64 bytes into an empty BUF, and one byte into one that holds 3. -/
theorem wit_UpdateThatFitsIsStored :
    (fresh.phase = .absorbing ∧ 0 < (zeros 64).length ∧ (zeros 64).length ≤ 64 - fresh.blen.val) ∧
    (abc.phase = .absorbing ∧ 0 < [1].length ∧ [1].length ≤ 64 - abc.blen.val) := by decide

/-- The greatest counter that completes, and the next that overflows. -/
theorem wit_UpdateCompletesOrOverflows :
    ((nearTop 2).phase = .absorbing ∧ (nearTop 2).counter + 64 * blocksCompressed (nearTop 2).blen.val [1].length = 2 ^ 64 - 64) ∧
    ((nearTop 1).phase = .absorbing ∧ (nearTop 1).counter + 64 * blocksCompressed (nearTop 1).blen.val [1].length = 2 ^ 64) := by
  decide

theorem wit_UpdateHoldsBackTheLastBlock :
    fresh.phase = .absorbing ∧ (∃ t, exec (.update .byteSequence [0x61]) fresh = .next t) ∧
      (nextOf (exec (.update .byteSequence (zeros 129)) fresh)).isSome :=
  ⟨rfl, ⟨_, rfl⟩, by decide +kernel⟩

theorem fresh_inv : fresh.Inv := by
  refine ⟨⟨rfl, show 0 < 4 by decide⟩, ?_⟩
  show AbsorbingInv fresh
  unfold AbsorbingInv
  decide

theorem wit_CompressionsPerUpdate :
    fresh.Inv ∧ fresh.phase = .absorbing ∧ [0x61] ≠ ([] : List Byte) ∧
      ∃ t, exec (.update .byteSequence [0x61]) fresh = .next t :=
  ⟨fresh_inv, rfl, by decide, ⟨_, rfl⟩⟩

theorem wit_StreamingEquivalence :
    fresh.phase = .absorbing ∧ (∃ t, execAll (updates [[0x61], [], [0x62]]) fresh = .next t) ∧
      ∃ u, exec (.update .byteSequence [[0x61], [], [0x62]].flatten) fresh = .next u :=
  ⟨rfl, ⟨_, rfl⟩, ⟨_, rfl⟩⟩

theorem wit_CounterAdditionCarriesOrFaults :
    (nearTop 1).counter + 63 = 2 ^ 64 - 1 ∧ (nearTop 1).counter + 64 = 2 ^ 64 := by decide

theorem wit_DigestWithoutInstance : State.reset.phase = .unconfigured := rfl

theorem wit_FirstDigestFinalizes :
    (abc.phase = .absorbing ∧ abc.counter + abc.blen.val = 3 ∧ abc.f1 = 0) ∧
    ((nearTop 2).phase = .absorbing ∧ (nearTop 2).counter + (nearTop 2).blen.val = 2 ^ 64 - 64) := by decide

theorem wit_DigestOverflowFaults :
    (nearTop 1).phase = .absorbing ∧ (nearTop 1).counter + (nearTop 1).blen.val = 2 ^ 64 := by decide

theorem wit_DigestIsIdempotent : done.phase = .finished ∧ abc.phase = .absorbing ∧ ∃ t, exec .digest abc = .next t :=
  ⟨rfl, rfl, ⟨_, rfl⟩⟩

theorem wit_DigestResponseHasDlenBytes :
    (abc.phase ≠ .unconfigured ∧ ∃ t, exec .digest abc = .next t) ∧ (done.phase ≠ .unconfigured ∧ ∃ t, exec .digest done = .next t) :=
  ⟨⟨by decide, ⟨_, rfl⟩⟩, ⟨by decide, ⟨_, rfl⟩⟩⟩

theorem wit_EmptyMessageHasOneCompression :
    ConfigLegal 1 [] none none false ∧ ConfigLegal 32 (zeros 32) (some (zeros 8)) (some (zeros 8)) false :=
  ⟨legal_least, legal_greatest⟩

theorem wit_EngineComputesTheHash :
    ConfigLegal 32 (zeros 32) (some (zeros 8)) (some (zeros 8)) false ∧
      (absorbedBytes (zeros 32) [[0x61], zeros 64].flatten).length < 2 ^ 64 :=
  ⟨legal_greatest, by decide +kernel⟩

theorem wit_ResponseFormat :
    (∃ t, exec .digest abc = .next t) ∧ (∃ t, exec (.update .byteSequence []) abc = .next t) ∧
      ∃ why len rest, fetch (given fresh [0, 0, 0, 0]).arrived = .illegal why len rest :=
  ⟨⟨_, rfl⟩, ⟨_, rfl⟩, .reservedOpcode, 4, [], by decide⟩

theorem wit_FailedCommandChangesNoRegister :
    (fetch (given State.reset [3, 0, 0, 0, 7]).arrived = .command .digest 4 (tagged 0 [7]) ∧
      (nextOf (step (given State.reset [3, 0, 0, 0, 7]))).isSome) ∧
    fetch (given fresh [0x13, 0, 0, 0]).arrived = .illegal .digestReservedBits 4 [] := by decide

theorem wit_OnlyThreeEventsWritePhase :
    (ConfigLegal 1 [] none none false ∧ ∃ t, exec (.config 1 [] none none false) fresh = .next t) ∧
    (abc.phase = .absorbing ∧ ∃ t, exec .digest abc = .next t) ∧
    ((∃ t, step fresh = .next t) ∧ ∀ i len rest, fetch fresh.arrived ≠ .command i len rest) := by
  refine ⟨⟨legal_least, _, rfl⟩, ⟨rfl, _, rfl⟩, ⟨_, rfl⟩, ?_⟩
  intro i len rest
  rw [show fetch fresh.arrived = .wait (.header []) by decide]
  simp

theorem wit_FinishedChangesOnlyByConfig :
    done.phase = .finished ∧ ∀ dl key salt pers uf, Instr.update .text [1] ≠ .config dl key salt pers uf :=
  ⟨rfl, by simp⟩

theorem wit_OnlyOverflowStopsACommand :
    faultOf (exec .digest (nearTop 1)) = some .counterOverflow ∧
      faultOf (exec (.update .byteSequence [1]) (nearTop 1)) = some .counterOverflow := by decide +kernel

theorem done_inv : done.Inv ↔ ∀ j : Fin 32, j.val < done.dlen.val → done.result[j] = (chainBytes done.chain)[j] := by
  constructor
  · exact fun h => h.2.2.2.2.1
  · intro h
    exact ⟨⟨rfl, show 0 < 4 by decide⟩, rfl, rfl, by decide, h, by decide, by decide, by decide⟩

/-- Absorbing, and finished with a digest in RESULT. -/
theorem wit_EveryStepKeepsTheInvariant :
    (fresh.Inv ∧ ∃ t, step fresh = .next t) ∧ (done.Inv ∧ ∃ t, step done = .next t) :=
  ⟨⟨fresh_inv, ⟨_, rfl⟩⟩, ⟨done_inv.2 (by decide +kernel), ⟨_, rfl⟩⟩⟩

theorem wit_HostActionsKeepTheInvariant : fresh.Inv := fresh_inv

/-- Two absorbing states that differ in a byte of BUF past BLEN and in RESULT; and two that differ in CHAIN before CONFIG. -/
theorem wit_UnspecifiedStateIsUnobservable :
    (SpecifiedAlike fresh { fresh with buf := fresh.buf.set 5 7, result := fresh.result.set 0 9 } ∧
      fresh ≠ { fresh with buf := fresh.buf.set 5 7, result := fresh.result.set 0 9 }) ∧
    SpecifiedAlike State.reset { State.reset with chain := chain32 } := by
  unfold SpecifiedAlike SameHash
  decide

theorem wit_EnginesAreIndependent :
    ∃ engines', systemStep #v[fresh, given State.reset [3, 0, 0, 0]] 1 = .next engines' := ⟨_, rfl⟩

theorem wit_HexDigestRendersEachByte : 15 < 16 ∧ 1 < [(0xff : Byte), 0x1a].length := by decide

end Sys2Proof.Tests
end

section
/-!
PROOFS. Right rotation (00_scope.md R11) bit by bit: below the wrap point the right shift gives the bit, from it on the left shift.
-/

namespace Sys2Proof.Machine

/-- R11's two shifts are the core library's rotation, whose lemmas then apply. -/
theorem rotr_eq_rotateRight (x : Word) {n : Nat} (hn : n < 32) : rotr x n = x.rotateRight n :=
  (BitVec.rotateRight_eq_rotateRightAux_of_lt hn).symm

theorem getLsbD_rotr (x : Word) {n i : Nat} (hn : n < 32) (hi : i < 32) :
    (rotr x n).getLsbD i = x.getLsbD ((i + n) % 32) := by
  rw [rotr_eq_rotateRight x hn, BitVec.getLsbD_rotateRight_of_lt hn]
  by_cases h : i < 32 - n
  · have hsrc : (i + n) % 32 = n + i := by omega
    simp [h, hsrc]
  · have hsrc : (i + n) % 32 = i - (32 - n) := by omega
    simp [h, hi, hsrc]

/-- Settles O20: the case n = 0 needs no exclusion, and each bit is read off the library's rotation on its side of the wrap point. -/
theorem rotrMovesEveryBit : Obligations.RotrMovesEveryBit := by
  intro x n i _ hn hi
  exact getLsbD_rotr x hn hi

end Sys2Proof.Machine
end

section
/-!
PROOFS. The effect of a command that goes on (30_encoding.md R81, R88) and the effect of a step on the stream (10_state.md R30, R32):
said once, for every statement about PHASE, the streams and the invariant.
-/

namespace Sys2Proof.Machine

/-- A CONFIG has no error of R101 to R105 exactly when its operands are legal. -/
theorem configErrors_eq_nil_iff (dl : BitVec 8) (key : List Byte) (salt pers : Option (List Byte)) (uf : Bool) :
    configErrors dl key salt pers uf = [] ↔ ConfigLegal dl key salt pers uf := by
  cases salt <;> cases pers <;> simp [configErrors, ConfigLegal, and_assoc, Nat.one_le_iff_ne_zero]

theorem execConfig_of_legal {dl : BitVec 8} {key : List Byte} {salt pers : Option (List Byte)} {uf : Bool}
    (h : ConfigLegal dl key salt pers uf) (s : State) :
    execConfig dl key salt pers uf s = .next ((s.startInstance dl key salt pers).emit [statusCode .ok]) := by
  simp only [execConfig, (configErrors_eq_nil_iff ..).2 h]

/-- What a command that goes on does to the state: it responds and leaves every register, or it is one of the three commands that
write registers. -/
inductive Effect (s : State) : Instr → State → Prop where
  | responds (i : Instr) (e : Status) (bytes : List Byte) (n : Nat) :
      Effect s i { s with out := s.out ++ statusCode e :: bytes, freeIx := n }
  | configured {dl : BitVec 8} {key : List Byte} {salt pers : Option (List Byte)} {uf : Bool}
      (legal : ConfigLegal dl key salt pers uf) :
      Effect s (.config dl key salt pers uf) ((s.startInstance dl key salt pers).emit [statusCode .ok])
  | absorbed {data : List Byte} {u : State} (phase : s.phase = .absorbing) (nonempty : data ≠ [])
      (run : absorb data s = .next u) :
      Effect s (.update .byteSequence data) (u.emit [statusCode .ok])
  | finalized {u : State} (phase : s.phase = .absorbing) (run : finalize s = .next u) :
      Effect s .digest (u.emit (statusCode .ok :: digestBytes u))

/-- Raising one of several errors only responds. -/
theorem raiseOneOf_effect {e : Status} {others : List Status} {s t : State} (i : Instr)
    (h : raiseOneOf e others s = .next t) : Effect s i t := by
  rw [raiseOneOf_next] at h
  obtain rfl := Host.Outcome.next.inj h
  exact .responds i _ [] _

theorem raise_effect {e : Status} {s t : State} (i : Instr) (h : raise e s = .next t) : Effect s i t := by
  rw [raise_eq] at h
  obtain rfl := Host.Outcome.next.inj h
  exact .responds i e [] s.freeIx

theorem emit_effect {bytes : List Byte} {s t : State} (i : Instr)
    (h : Host.Outcome.next (s.emit (statusCode .ok :: bytes)) = (.next t : Host.Outcome State Fault Refusal)) : Effect s i t := by
  obtain rfl := Host.Outcome.next.inj h
  exact .responds i .ok bytes s.freeIx

/-- Every command that goes on has one of the four effects. -/
theorem exec_effect {i : Instr} {s t : State} (h : exec i s = .next t) : Effect s i t := by
  cases i with
  | config dl key salt pers uf =>
    change execConfig dl key salt pers uf s = .next t at h
    obtain ⟨hnone, hrun⟩ | ⟨e, others, -, hrun⟩ := execConfig_cases dl key salt pers uf s <;> rw [hrun] at h
    · obtain rfl := Host.Outcome.next.inj h
      exact .configured ((configErrors_eq_nil_iff ..).1 hnone)
    · exact raiseOneOf_effect _ h
  | update et data =>
    change execUpdate et data s = .next t at h
    obtain ⟨-, hrun⟩ | ⟨-, e, others, -, hrun⟩ | ⟨hphase, rfl, ⟨-, hrun⟩ | ⟨hdata, hrun⟩⟩ := execUpdate_cases et data s <;>
      rw [hrun] at h
    · exact raise_effect _ h
    · exact raiseOneOf_effect _ h
    · exact emit_effect _ h
    · obtain ⟨u, hu, h⟩ := (andThen_eq_next _ _).1 h
      obtain rfl := Host.Outcome.next.inj h
      exact .absorbed hphase hdata hu
  | digest =>
    change execDigest s = .next t at h
    obtain ⟨-, hrun⟩ | ⟨-, hrun⟩ | ⟨hphase, hrun⟩ := execDigest_cases s <;> rw [hrun] at h
    · exact raise_effect _ h
    · exact emit_effect _ h
    · obtain ⟨u, hu, h⟩ := (andThen_eq_next _ _).1 h
      obtain rfl := Host.Outcome.next.inj h
      exact .finalized hphase hu

theorem absorb_phase {data : List Byte} {s t : State} (h : absorb data s = .next t) : t.phase = s.phase := by
  rw [absorb_next h]

theorem finalize_phase {s t : State} (h : finalize s = .next t) : t.phase = .finished := by
  rw [(finalize_next h).1]

theorem absorb_streams {data : List Byte} {s t : State} (h : absorb data s = .next t) :
    t.parser = s.parser ∧ t.cmdIn = s.cmdIn ∧ t.pos = s.pos ∧ t.out = s.out := by
  rw [absorb_next h]
  exact ⟨rfl, rfl, rfl, rfl⟩

theorem finalize_streams {s t : State} (h : finalize s = .next t) :
    t.parser = s.parser ∧ t.cmdIn = s.cmdIn ∧ t.pos = s.pos ∧ t.out = s.out := by
  rw [(finalize_next h).1]
  exact ⟨rfl, rfl, rfl, rfl⟩

/-- Every command that goes on leaves the command stream alone and appends a status byte and perhaps more to the responses. -/
theorem exec_streams {i : Instr} {s t : State} (h : exec i s = .next t) :
    t.parser = s.parser ∧ t.cmdIn = s.cmdIn ∧ t.pos = s.pos ∧
      ∃ (e : Status) (bytes : List Byte), t.out = s.out ++ statusCode e :: bytes := by
  cases exec_effect h with
  | responds _ e bytes n => exact ⟨rfl, rfl, rfl, e, bytes, rfl⟩
  | configured _ => exact ⟨rfl, rfl, rfl, .ok, [], rfl⟩
  | absorbed _ _ run =>
    obtain ⟨hparser, hcmd, hpos, hout⟩ := absorb_streams run
    exact ⟨hparser, hcmd, hpos, .ok, [], by rw [State.emit_out, hout]⟩
  | finalized _ run =>
    obtain ⟨hparser, hcmd, hpos, hout⟩ := finalize_streams run
    exact ⟨hparser, hcmd, hpos, .ok, _, by rw [State.emit_out, hout]⟩

/-- Settles O11: the fetch takes nothing or a whole frame, and no command touches the command stream. -/
theorem stepTakesOneCommand : Obligations.StepTakesOneCommand := by
  intro s t h
  have taken (n : Nat) : (s.consume n (s.arrived.drop n)).arrived = s.arrived.drop n := rfl
  rw [step, ← State.arrived] at h
  obtain ⟨-, hf⟩ | ⟨-, ⟨hlen, hf⟩ | ⟨hlen, ⟨why, rest, -, hf⟩ | ⟨i, rest, -, hf⟩⟩⟩ := fetch_cases s.arrived <;>
    simp only [hf] at h
  · cases h
  · obtain rfl := Host.Outcome.next.inj h
    exact .inl ⟨hlen, by simp [State.arrived], rfl, rfl⟩
  · obtain rfl := Host.Outcome.next.inj h
    exact .inr ⟨hlen, taken _, rfl, rfl, .illegalCommand, [], rfl⟩
  · obtain ⟨hparser, hcmd, hpos, e, bytes, hout⟩ := exec_streams h
    exact .inr ⟨hlen, by rw [State.arrived, hparser, hcmd]; exact taken _, hpos, hparser, e, bytes, hout⟩

/-- A step that takes no command leaves PHASE as it is: it waits, or raises IllegalCommand. -/
theorem step_phase_of_no_command {s t : State} (h : step s = .next t)
    (hno : ∀ i len rest, fetch s.arrived ≠ .command i len rest) : t.phase = s.phase := by
  obtain ⟨-, hrun⟩ | ⟨held, -, hrun⟩ | ⟨why, len, rest, -, hrun⟩ | ⟨i, len, rest, hf, -⟩ := step_cases s
  · rw [hrun] at h; cases h
  · obtain rfl := Host.Outcome.next.inj (hrun.symm.trans h); rfl
  · obtain rfl := Host.Outcome.next.inj (hrun.symm.trans h); rfl
  · exact absurd hf (hno i len rest)

/-- Which commands write PHASE, and what they write. -/
theorem exec_phase {i : Instr} {s t : State} (h : exec i s = .next t) :
    t.phase = s.phase ∨
    (t.phase = .absorbing ∧ ∃ dl key salt pers uf, i = .config dl key salt pers uf ∧ ConfigLegal dl key salt pers uf) ∨
    (s.phase = .absorbing ∧ t.phase = .finished ∧ i = .digest) := by
  cases exec_effect h with
  | responds _ e bytes n => exact .inl rfl
  | configured legal => exact .inr (.inl ⟨rfl, _, _, _, _, _, rfl, legal⟩)
  | absorbed _ _ run => exact .inl ((State.emit_phase ..).trans (absorb_phase run))
  | finalized phase run => exact .inr (.inr ⟨phase, (State.emit_phase ..).trans (finalize_phase run), rfl⟩)

theorem digest_phase_of_absorbing {s t : State} (hphase : s.phase = .absorbing) (h : exec .digest s = .next t) :
    t.phase = .finished := by
  obtain ⟨hp, -⟩ | ⟨hp, -⟩ | ⟨-, hrun⟩ := execDigest_cases s
  · simp [hphase] at hp
  · simp [hphase] at hp
  · obtain ⟨u, hu, h⟩ := (andThen_eq_next _ _).1 (hrun.symm.trans h)
    obtain rfl := Host.Outcome.next.inj h
    exact (State.emit_phase ..).trans (finalize_phase hu)

/-- Settles O42: the writers are read off the effect of a command, and a step without a command has none. -/
theorem onlyThreeEventsWritePhase : Obligations.OnlyThreeEventsWritePhase := by
  refine ⟨⟨rfl, rfl, rfl, ?_⟩, fun _ => rfl, fun _ _ _ => exec_phase, ?_, fun _ _ => digest_phase_of_absorbing,
    fun _ _ => step_phase_of_no_command⟩
  · intro p
    cases p <;> decide
  · intro dl key salt pers uf s t legal h
    obtain rfl := Host.Outcome.next.inj ((execConfig_of_legal legal s).symm.trans h)
    rfl

/-- Settles O43: UPDATE has UpdateAfterFinalize among its errors, and DIGEST emits the cached digest. -/
theorem finishedChangesOnlyByConfig : Obligations.FinishedChangesOnlyByConfig := by
  intro i s hphase hi
  cases i with
  | config dl key salt pers uf => exact absurd rfl (hi dl key salt pers uf)
  | update et data =>
    obtain ⟨hp, -⟩ | ⟨-, e, others, -, hrun⟩ | ⟨hp, -⟩ := execUpdate_cases et data s
    · simp [hphase] at hp
    · obtain ⟨n, hn⟩ := raiseOneOf_eq e others s
      exact ⟨_, n, hrun.trans hn⟩
    · simp [hphase] at hp
  | digest =>
    obtain ⟨hp, -⟩ | ⟨-, hrun⟩ | ⟨hp, -⟩ := execDigest_cases s
    · simp [hphase] at hp
    · exact ⟨_, s.freeIx, hrun⟩
    · simp [hphase] at hp

end Sys2Proof.Machine
end

section
/-!
PROOFS. The invariant of 10_state.md R26, R30, R35 and R36: it holds at reset, and each effect of a command and each outcome of the
fetch keeps it.
-/

namespace Sys2Proof.Machine

/-! ### The parser -/

/-- The length of a command depends on its four header bytes alone. -/
theorem frameLength_take_four (bytes : List Byte) (h : 4 ≤ bytes.length) : frameLength (bytes.take 4) = frameLength bytes := by
  obtain ⟨hlt, -⟩ | ⟨w, after, rfl⟩ := bytes_cases bytes
  · omega
  · rw [List.take_left' (bytesLE_length w), frameLength_bytesLE, ← List.append_nil (bytesLE w), frameLength_bytesLE]

/-- A parser that holds all bytes of one producer's incomplete command meets the parser's invariant. -/
theorem parserInv_parserHolding {l : List StreamByte} (hone : oneProducer l = true)
    (hlen : l.length < frameLength (plainBytes l)) : ParserInv (parserHolding l) := by
  refine ⟨by rwa [parserBytes_parserHolding], ?_⟩
  rw [parserHolding]
  split
  next hp =>
    split at hp
    · obtain rfl := Parser.header.inj hp; assumption
    · cases hp
  next hp =>
    split at hp
    · cases hp
    · obtain ⟨rfl, rfl⟩ := Parser.payload.inj hp
      have htake : plainBytes (l.take 4) = (plainBytes l).take 4 := by simp [plainBytes]
      rw [htake, frameLength_take_four _ (by rw [plainBytes_length]; omega)]
      simp only [List.length_take, List.length_drop]
      omega

theorem parserInv_idle : ParserInv (.header []) := ⟨rfl, by decide⟩

/-- What a waiting fetch leaves in the parser meets the parser's invariant. -/
theorem parserInv_of_fetch_wait {l : List StreamByte} {held : Parser} (h : fetch l = .wait held) : ParserInv held := by
  obtain ⟨-, hf⟩ | ⟨hone, ⟨hlen, hf⟩ | ⟨-, ⟨_, _, -, hf⟩ | ⟨_, _, -, hf⟩⟩⟩ := fetch_cases l <;> rw [hf] at h
  · cases h
  · obtain rfl := Fetched.wait.inj h
    rw [List.take_of_length_le hlen.le] at hone
    exact parserInv_parserHolding hone hlen
  · cases h
  · cases h

/-! ### The registers -/

/-- The invariant speaks of the parser and the hash registers: responses, stream, position and draw number are free. -/
theorem State.Inv.withStreams {s : State} (h : s.Inv) {p : Parser} (hp : ParserInv p) (cmd : List StreamByte) (pos : Nat)
    (out : List Byte) (n : Nat) : State.Inv { s with parser := p, cmdIn := cmd, pos := pos, out := out, freeIx := n } :=
  ⟨hp, h.2⟩

theorem State.Inv.emit {s : State} (h : s.Inv) (bytes : List Byte) : (s.emit bytes).Inv := h.withStreams h.1 _ _ _ _

theorem State.Inv.absorbing {s : State} (h : s.Inv) (hphase : s.phase = .absorbing) : AbsorbingInv s := by
  have hreg := h.2
  rwa [hphase] at hreg

theorem AbsorbingInv.inv {s : State} (h : AbsorbingInv s) (hp : ParserInv s.parser) (hphase : s.phase = .absorbing) : s.Inv := by
  refine ⟨hp, ?_⟩
  rwa [hphase]

theorem FinishedInv.inv {s : State} (h : FinishedInv s) (hp : ParserInv s.parser) (hphase : s.phase = .finished) : s.Inv := by
  refine ⟨hp, ?_⟩
  rwa [hphase]

/-- CONFIG starts with no flag, no byte counted and a legal DLEN. -/
theorem startInstance_absorbingInv {dl : BitVec 8} {key : List Byte} {salt pers : Option (List Byte)} {uf : Bool}
    (legal : ConfigLegal dl key salt pers uf) (s : State) : AbsorbingInv (s.startInstance dl key salt pers) := by
  obtain ⟨hlow, hhigh, -⟩ := legal
  have hcounter : (s.startInstance dl key salt pers).counter = 0 := by simp [State.counter, counterValue]
  have hdlen : (Fin.ofNat 33 dl.toNat).val = dl.toNat := by rw [Fin.val_ofNat, Nat.mod_eq_of_lt (by omega)]
  refine ⟨rfl, rfl, by rw [hcounter], fun _ => hcounter, ?_⟩
  rwa [State.startInstance_dlen, hdlen]

/-- A top-up counts one block. -/
theorem topUp_counter {data : List Byte} {s t : State} (h : topUp data s = .next t) : t.counter = s.counter + 64 := by
  obtain ⟨-, hadd, -⟩ := topUp_next h
  exact (addCounter_some hadd).1

/-- Draining that goes on has counted every whole block but the last bytes, and leaves those. -/
theorem drainBlocks_rest {fuel : Nat} {data : List Byte} {s : State} {r : State × List Byte}
    (h : drainBlocks fuel data s = .next r) (hfuel : data.length ≤ 64 * (fuel + 1)) :
    r.1.counter = s.counter + 64 * ((data.length - 1) / 64) ∧ r.2 = data.drop (64 * ((data.length - 1) / 64)) := by
  rcases Nat.lt_or_ge (s.counter + 64 * ((data.length - 1) / 64)) (2 ^ 64) with hlt | hge
  · obtain ⟨r', hr', -, hcounter, hrest⟩ := drainBlocks_of_lt fuel data s hlt hfuel
    obtain rfl := Host.Outcome.next.inj (h.symm.trans hr')
    exact ⟨hcounter, hrest⟩
  · rw [drainBlocks_of_ge fuel data s hge hfuel] at h
    cases h

/-- Absorbing a payload that is not empty counts whole blocks and leaves bytes in BUF (42_update.md R166). -/
theorem absorb_counter {data : List Byte} {s t : State} (hdata : data ≠ []) (h : absorb data s = .next t) :
    t.counter % 64 = s.counter % 64 ∧ t.blen.val ≠ 0 := by
  have hpos : 0 < data.length := List.length_pos_iff.2 hdata
  rw [absorb] at h
  split at h
  next hlong =>
    obtain ⟨u, hu, h⟩ := (andThen_eq_next _ _).1 h
    obtain ⟨r, hr, h⟩ := (andThen_eq_next _ _).1 h
    obtain rfl := Host.Outcome.next.inj h
    obtain ⟨hcounter, hrest⟩ := drainBlocks_rest hr (by simp only [List.length_drop]; omega)
    have hblen : r.1.blen.val = 0 := by rw [drainBlocks_next hr, (topUp_next hu).1]; rfl
    have hlen : r.2.length = data.length - (64 - s.blen.val) - 64 * ((data.length - (64 - s.blen.val) - 1) / 64) := by
      rw [hrest]; simp only [List.length_drop]
    rw [(holdBack_buffered r.2 r.1 (by omega)).2, holdBack_counter, hcounter, topUp_counter hu]
    omega
  next hshort =>
    obtain rfl := Host.Outcome.next.inj h
    rw [(holdBack_buffered data s (by omega)).2, holdBack_counter]
    omega

/-- Absorbing keeps the flags and DLEN. -/
theorem absorb_flags {data : List Byte} {s t : State} (h : absorb data s = .next t) :
    t.f0 = s.f0 ∧ t.f1 = s.f1 ∧ t.dlen = s.dlen := by
  rw [absorb_next h]
  exact ⟨rfl, rfl, rfl⟩

theorem absorb_absorbingInv {data : List Byte} {s t : State} (hs : AbsorbingInv s) (hdata : data ≠ [])
    (h : absorb data s = .next t) : AbsorbingInv t := by
  obtain ⟨hf0, hf1, hmod, -, hdlen⟩ := hs
  obtain ⟨hf0', hf1', hdlen'⟩ := absorb_flags h
  obtain ⟨hcounter, hblen⟩ := absorb_counter hdata h
  exact ⟨hf0'.trans hf0, hf1'.trans hf1, hcounter.trans hmod, fun hzero => absurd hzero hblen, by rwa [hdlen']⟩

theorem bufZeroFrom_getElem (b : Vector Byte 64) (len i : Nat) (h : i < 64) :
    (bufZeroFrom b len)[i] = if i < len then b[i] else 0 := by
  unfold bufZeroFrom; simp

theorem resultOf_getElem (c : Vector Word 8) (len draw j : Nat) (h : j < 32) :
    (resultOf c len draw)[j] = if j < len then (chainBytes c)[j] else Config.freeByte draw j := by
  unfold resultOf; simp

/-- Finalization pads BUF, sets the flag, counts the bytes of BUF and caches the digest of the new CHAIN. -/
theorem finalize_finishedInv {s t : State} (hs : AbsorbingInv s) (h : finalize s = .next t) : FinishedInv t := by
  obtain ⟨-, hf1, hmod, hzero, hdlen⟩ := hs
  obtain ⟨ht, hadd⟩ := finalize_next h
  have hcounter : t.counter = s.counter + s.blen.val := (addCounter_some hadd).1
  have hblen : t.blen = s.blen := by rw [ht]
  have hdlen' : t.dlen = s.dlen := by rw [ht]
  have hbuf : t.buf = bufZeroFrom s.buf s.blen.val := congrArg State.buf ht
  have hresult : t.result = resultOf t.chain s.dlen.val s.freeIx := congrArg State.result ht
  refine ⟨by rw [ht], by rwa [ht], fun i hi => ?_, fun j hj => ?_, ?_, ?_, ?_⟩
  · rw [hblen] at hi
    rw [Fin.getElem_fin, hbuf, bufZeroFrom_getElem, if_neg (by omega)]
  · rw [hdlen'] at hj
    rw [Fin.getElem_fin, hresult, resultOf_getElem, if_pos hj, Fin.getElem_fin]
  · rw [hblen, hcounter]; omega
  · rw [hblen, hcounter]; omega
  · rwa [hdlen']

/-! ### Commands, steps and reset -/

/-- Every command that goes on keeps the invariant. -/
theorem exec_keeps_inv {i : Instr} {s t : State} (hs : s.Inv) (h : exec i s = .next t) : t.Inv := by
  cases exec_effect h with
  | responds _ e bytes n => exact hs.withStreams hs.1 _ _ _ _
  | configured legal => exact ((startInstance_absorbingInv legal s).inv hs.1 rfl).emit _
  | @absorbed _ u phase nonempty run =>
    have hparser : ParserInv u.parser := by rw [(absorb_streams run).1]; exact hs.1
    have hregs : AbsorbingInv u := absorb_absorbingInv (hs.absorbing phase) nonempty run
    exact (hregs.inv hparser ((absorb_phase run).trans phase)).emit _
  | @finalized u phase run =>
    have hparser : ParserInv u.parser := by rw [(finalize_streams run).1]; exact hs.1
    have hregs : FinishedInv u := finalize_finishedInv (hs.absorbing phase) run
    exact (hregs.inv hparser (finalize_phase run)).emit _

/-- Settles O46: waiting keeps the parser's invariant, and the state from which a command starts meets the invariant, which the
command keeps. -/
theorem everyStepKeepsTheInvariant : Obligations.EveryStepKeepsTheInvariant := by
  intro s t hs h
  have hidle (len : Nat) (rest : List StreamByte) : (s.consume len rest).Inv := hs.withStreams parserInv_idle _ _ _ _
  obtain ⟨-, hrun⟩ | ⟨held, hfetch, hrun⟩ | ⟨why, len, rest, -, hrun⟩ | ⟨i, len, rest, -, hrun⟩ := step_cases s <;>
    rw [hrun] at h
  · cases h
  · obtain rfl := Host.Outcome.next.inj h
    exact hs.withStreams (parserInv_of_fetch_wait hfetch) _ _ _ _
  · obtain rfl := Host.Outcome.next.inj h
    exact (hidle len rest).withStreams parserInv_idle _ _ _ _
  · exact exec_keeps_inv (hidle len rest) h

/-- Settles O45: nothing is configured at reset, and the parser is idle. -/
theorem invariantAtReset : Obligations.InvariantAtReset := ⟨parserInv_idle, trivial⟩

end Sys2Proof.Machine
end

section
/-!
PROOFS. What the spec leaves unspecified cannot be observed (10_state.md R27, R37, R38). BUF past BLEN and RESULT are written before
they are read: topping up, holding back and finalizing give one outcome for every content of BUF past BLEN, and finalizing gives one for
every RESULT.
-/

namespace Sys2Proof.Machine

/-! ### BUF past BLEN -/

/-- Equal valid bytes of BUF are equal one by one. -/
theorem buf_getElem_of_buffered_eq {s : State} {b : Vector Byte 64} (h : State.buffered { s with buf := b } = s.buffered)
    {i : Nat} (hi : i < s.blen.val) : b[i]'(by omega) = s.buf[i]'(by omega) := by
  rw [← buffered_getD s i hi, ← h, buffered_getD { s with buf := b } i hi]

/-- Appended and free bytes replace every byte of BUF past BLEN. -/
theorem holdBack_withBuf {s : State} {b : Vector Byte 64} (h : State.buffered { s with buf := b } = s.buffered)
    (data : List Byte) : holdBack data { s with buf := b } = holdBack data s := by
  have hbuf : bufFreeFrom (bufWrite b s.blen.val data) (s.blen.val + data.length) s.freeIx =
      bufFreeFrom (bufWrite s.buf s.blen.val data) (s.blen.val + data.length) s.freeIx := by
    apply Vector.ext
    intro i hi
    simp only [bufFreeFrom_getElem, bufWrite_getElem]
    split_ifs
    · rfl
    · exact buf_getElem_of_buffered_eq h (by omega)
    · rfl
  simp only [holdBack, hbuf]

theorem compressBlock_withBuf (block : Vector Byte 64) (n : Nat) (f0 f1 : Word) (s : State) (b : Vector Byte 64) :
    compressBlock block n f0 f1 { s with buf := b } =
      andThen (compressBlock block n f0 f1 s) fun t => .next { t with buf := b } := by
  unfold compressBlock
  cases addCounter s.t0 s.t1 n <;> rfl

/-- A payload that fills BUF replaces every byte of BUF past BLEN. -/
theorem topUp_withBuf {s : State} {b : Vector Byte 64} (h : State.buffered { s with buf := b } = s.buffered)
    {data : List Byte} (hlen : 64 - s.blen.val ≤ data.length) :
    topUp (data.take (64 - s.blen.val)) { s with buf := b } = topUp (data.take (64 - s.blen.val)) s := by
  have hfull : bufWrite b s.blen.val (data.take (64 - s.blen.val)) = blockOf (s.buffered ++ data) := by
    rw [← h]; exact bufWrite_eq_blockOf { s with buf := b } data hlen
  simp only [topUp, hfull, bufWrite_eq_blockOf s data hlen, compressBlock_withBuf, andThen_assoc, andThen_of_next]

theorem absorb_withBuf {s : State} {b : Vector Byte 64} (h : State.buffered { s with buf := b } = s.buffered)
    (data : List Byte) : absorb data { s with buf := b } = absorb data s := by
  simp only [absorb]
  split
  next hlong => rw [topUp_withBuf h hlong.le]
  next => rw [holdBack_withBuf h]

/-- Zero padding replaces every byte of BUF past BLEN. -/
theorem finalize_withBuf {s : State} {b : Vector Byte 64} (h : State.buffered { s with buf := b } = s.buffered) :
    finalize { s with buf := b } = finalize s := by
  have hbuf : bufZeroFrom b s.blen.val = bufZeroFrom s.buf s.blen.val := by
    apply Vector.ext
    intro i hi
    simp only [bufZeroFrom_getElem]
    split_ifs with hvalid
    · exact buf_getElem_of_buffered_eq h hvalid
    · rfl
  simp only [finalize, hbuf]

/-! ### RESULT -/

theorem compressBlock_withResult (block : Vector Byte 64) (n : Nat) (f0 f1 : Word) (s : State) (r : Vector Byte 32) :
    compressBlock block n f0 f1 { s with result := r } =
      andThen (compressBlock block n f0 f1 s) fun t => .next { t with result := r } := by
  unfold compressBlock
  cases addCounter s.t0 s.t1 n <;> rfl

theorem drainBlocks_withResult (fuel : Nat) (data : List Byte) (s : State) (r : Vector Byte 32) :
    drainBlocks fuel data { s with result := r } =
      andThen (drainBlocks fuel data s) fun p => .next ({ p.1 with result := r }, p.2) := by
  induction fuel generalizing data s with
  | zero => rfl
  | succ fuel ih =>
    rw [drainBlocks, drainBlocks]
    split
    · simp only [compressBlock_withResult, andThen_assoc, andThen_of_next, ih]
    · rfl

theorem topUp_withResult (data : List Byte) (s : State) (r : Vector Byte 32) :
    topUp data { s with result := r } = andThen (topUp data s) fun t => .next { t with result := r } := by
  simp only [topUp, compressBlock_withResult, andThen_assoc, andThen_of_next]

/-- Absorbing neither reads nor writes RESULT. -/
theorem absorb_withResult (data : List Byte) (s : State) (r : Vector Byte 32) :
    absorb data { s with result := r } = andThen (absorb data s) fun t => .next { t with result := r } := by
  simp only [absorb]
  split
  · simp only [topUp_withResult, drainBlocks_withResult, andThen_assoc, andThen_of_next, holdBack]
  · rfl

/-- Finalizing writes RESULT without reading it. -/
theorem finalize_withResult (s : State) (r : Vector Byte 32) : finalize { s with result := r } = finalize s := by
  simp only [finalize, compressBlock]
  cases addCounter s.t0 s.t1 s.blen.val <;> rfl

/-! ### Alike states and outcomes -/

theorem SpecifiedAlike.refl (s : State) : SpecifiedAlike s s :=
  ⟨rfl, rfl, rfl, rfl, rfl, rfl, fun _ => ⟨rfl, rfl, rfl, rfl, rfl, rfl, rfl, rfl⟩, fun _ => rfl⟩

theorem outcomesAlike_refl (o : Host.Outcome State Fault Refusal) : OutcomesAlike o o := by
  cases o with
  | next s => exact SpecifiedAlike.refl s
  | fault r => rfl
  | refused r => rfl

/-- States that are alike stay alike when both get the same parser, streams, position and draw number. -/
theorem SpecifiedAlike.withStreams {s t : State} (h : SpecifiedAlike s t) {p p' : Parser} {cmd cmd' : List StreamByte}
    {pos pos' : Nat} {out out' : List Byte} {n n' : Nat} (hp : p = p') (hcmd : cmd = cmd') (hpos : pos = pos')
    (hout : out = out') (hn : n = n') :
    SpecifiedAlike { s with parser := p, cmdIn := cmd, pos := pos, out := out, freeIx := n }
      { t with parser := p', cmdIn := cmd', pos := pos', out := out', freeIx := n' } := by
  obtain ⟨hphase, -, -, -, -, -, hhash, hdigest⟩ := h
  exact ⟨hphase, hp, hcmd, hpos, hout, hn, hhash, hdigest⟩

theorem SpecifiedAlike.emit {s t : State} (h : SpecifiedAlike s t) (bytes : List Byte) :
    SpecifiedAlike (s.emit bytes) (t.emit bytes) := by
  have ⟨_, hparser, hcmd, hpos, hout, hix, _⟩ := h
  exact h.withStreams hparser hcmd hpos (by rw [hout]) hix

theorem SpecifiedAlike.consume {s t : State} (h : SpecifiedAlike s t) (len : Nat) (rest : List StreamByte) :
    SpecifiedAlike (s.consume len rest) (t.consume len rest) := by
  have ⟨_, _, _, hpos, hout, hix, _⟩ := h
  exact h.withStreams rfl rfl (by rw [hpos]) hout hix

theorem SpecifiedAlike.hold {s t : State} (h : SpecifiedAlike s t) (p : Parser) : SpecifiedAlike (s.hold p) (t.hold p) := by
  have ⟨_, _, _, hpos, hout, hix, _⟩ := h
  exact h.withStreams rfl rfl hpos hout hix

/-- One draw number gives one pick. -/
theorem SpecifiedAlike.raiseOneOf_alike {s t : State} (h : SpecifiedAlike s t) (e : Status) (others : List Status) :
    OutcomesAlike (raiseOneOf e others s) (raiseOneOf e others t) := by
  have ⟨_, hparser, hcmd, hpos, hout, hix, _⟩ := h
  rw [raiseOneOf_next, raiseOneOf_next, ← hix]
  exact h.withStreams hparser hcmd hpos (by rw [hout]) rfl

/-- While absorbing, RESULT is not specified. -/
theorem specifiedAlike_withResult {s : State} (hphase : s.phase = .absorbing) (r : Vector Byte 32) :
    SpecifiedAlike s { s with result := r } :=
  ⟨rfl, rfl, rfl, rfl, rfl, rfl, fun _ => ⟨rfl, rfl, rfl, rfl, rfl, rfl, rfl, rfl⟩, fun hfin => by simp [hphase] at hfin⟩

/-- From the first CONFIG on, alike states differ in RESULT and in BUF past BLEN alone. -/
theorem SpecifiedAlike.eq_withBuf_withResult {s t : State} (h : SpecifiedAlike s t) (hphase : s.phase ≠ .unconfigured) :
    t = { { s with buf := t.buf } with result := t.result } ∧ State.buffered { s with buf := t.buf } = s.buffered := by
  obtain ⟨hphase', hparser, hcmd, hpos, hout, hix, hhash, -⟩ := h
  obtain ⟨hchain, hblen, hbuffered, ht0, ht1, hf0, hf1, hdlen⟩ := hhash hphase
  constructor
  · cases s; cases t; simp_all
  · rw [hbuffered, State.buffered, State.buffered, hblen]

/-- Alike states that absorb take a payload alike: the outcomes differ in RESULT alone. -/
theorem SpecifiedAlike.absorb_eq {s t : State} (h : SpecifiedAlike s t) (hphase : s.phase = .absorbing) (data : List Byte) :
    absorb data t = andThen (absorb data s) fun u => .next { u with result := t.result } := by
  obtain ⟨ht, hbuffered⟩ := h.eq_withBuf_withResult (by simp [hphase])
  rw [ht, absorb_withResult, absorb_withBuf hbuffered]

/-- Alike states that absorb finalize to one outcome. -/
theorem SpecifiedAlike.finalize_eq {s t : State} (h : SpecifiedAlike s t) (hphase : s.phase = .absorbing) :
    finalize t = finalize s := by
  obtain ⟨ht, hbuffered⟩ := h.eq_withBuf_withResult (by simp [hphase])
  rw [ht, finalize_withResult, finalize_withBuf hbuffered]

/-! ### Commands and steps -/

theorem SpecifiedAlike.execConfig_alike {s t : State} (h : SpecifiedAlike s t) (dl : BitVec 8) (key : List Byte)
    (salt pers : Option (List Byte)) (uf : Bool) :
    OutcomesAlike (execConfig dl key salt pers uf s) (execConfig dl key salt pers uf t) := by
  unfold execConfig
  split
  · have ⟨_, hparser, hcmd, hpos, hout, hix, _⟩ := h
    have hstart : SpecifiedAlike (s.startInstance dl key salt pers) (t.startInstance dl key salt pers) :=
      ⟨rfl, hparser, hcmd, hpos, hout, hix, fun _ => ⟨rfl, rfl, rfl, rfl, rfl, rfl, rfl, rfl⟩, fun hfin => by simp at hfin⟩
    exact hstart.emit _
  · exact h.raiseOneOf_alike _ _

theorem phase_eq_absorbing {p : Phase} (hu : p ≠ .unconfigured) (hf : p ≠ .finished) : p = .absorbing := by
  cases p <;> simp_all

/-- A payload that is absorbed is answered alike, or overflows the counter alike. -/
theorem SpecifiedAlike.absorbing_update_alike {s t : State} (h : SpecifiedAlike s t) (hphase : s.phase = .absorbing)
    (data : List Byte) :
    OutcomesAlike (andThen (absorb data s) fun u => .next (u.emit [statusCode .ok]))
      (andThen (absorb data t) fun u => .next (u.emit [statusCode .ok])) := by
  rw [h.absorb_eq hphase]
  cases hrun : absorb data s with
  | next u => exact (specifiedAlike_withResult ((absorb_phase hrun).trans hphase) t.result).emit _
  | fault r => rfl
  | refused r => rfl

theorem updateErrors_eq_nil_iff (et : ElementType) (phase : Phase) :
    updateErrors et phase = [] ↔ et = .byteSequence ∧ phase ≠ .finished := by
  simp [updateErrors]

theorem SpecifiedAlike.execUpdate_alike {s t : State} (h : SpecifiedAlike s t) (et : ElementType) (data : List Byte) :
    OutcomesAlike (execUpdate et data s) (execUpdate et data t) := by
  unfold execUpdate
  rw [← h.1]
  split
  next => exact h.emit _
  next hconfigured =>
    split
    next => exact h.raiseOneOf_alike _ _
    next hnone =>
      split
      next => exact h.emit _
      next =>
        exact h.absorbing_update_alike
          (phase_eq_absorbing hconfigured ((updateErrors_eq_nil_iff et s.phase).1 hnone).2) data

theorem SpecifiedAlike.execDigest_alike {s t : State} (h : SpecifiedAlike s t) : OutcomesAlike (execDigest s) (execDigest t) := by
  have ⟨hphase, _, _, _, _, _, _, hdigest⟩ := h
  unfold execDigest
  rw [← hphase]
  cases hp : s.phase with
  | unconfigured => exact h.emit _
  | finished =>
    dsimp only
    rw [← hdigest hp]
    exact h.emit _
  | absorbing =>
    dsimp only
    rw [h.finalize_eq hp]
    exact outcomesAlike_refl _

/-- Every command takes alike states to alike outcomes. -/
theorem SpecifiedAlike.exec_alike {s t : State} (h : SpecifiedAlike s t) (i : Instr) : OutcomesAlike (exec i s) (exec i t) := by
  cases i with
  | config dl key salt pers uf => exact h.execConfig_alike dl key salt pers uf
  | update et data => exact h.execUpdate_alike et data
  | digest => exact h.execDigest_alike

/-- Settles O49: alike states fetch the same, and every command takes alike states to alike outcomes. -/
theorem unspecifiedStateIsUnobservable : Obligations.UnspecifiedStateIsUnobservable := by
  intro s t h
  have ⟨_, hparser, hcmd, _⟩ := h
  unfold step
  rw [← hparser, ← hcmd]
  cases fetch (parserBytes s.parser ++ s.cmdIn) with
  | torn => rfl
  | wait held => exact h.hold held
  | illegal why len rest => exact (h.consume len rest).emit _
  | command i len rest => exact (h.consume len rest).exec_alike i

end Sys2Proof.Machine
end

section
/-!
PROOFS. A step of one engine touches no other (20_memory.md R64), and what the host does between steps reaches the parser, the streams
and, at a reset, PHASE (20_memory.md R50; 10_state.md R31; 70_reset_and_hazards.md R250).
-/

namespace Sys2Proof.Machine

/-- Settles O50: the system's step writes the place of engine k alone. -/
theorem enginesAreIndependent : Obligations.EnginesAreIndependent := by
  intro n engines engines' k h
  obtain ⟨s, hs, hset⟩ := (andThen_eq_next _ _).1 h
  obtain rfl := Host.Outcome.next.inj hset
  constructor
  · intro j hj
    exact Vector.getElem_set_ne _ _ (fun hkj => hj (Fin.ext hkj.symm))
  · simpa using hs

/-- Settles O47: writing and reading move the streams alone, and a reset leaves an idle parser and PHASE UNCONFIGURED. -/
theorem hostActionsKeepTheInvariant : Obligations.HostActionsKeepTheInvariant := by
  intro s hs
  refine ⟨fun producer bytes => ?_, fun n => ?_, ?_⟩
  · exact hs.withStreams hs.1 (s.cmdIn ++ tagged producer bytes) s.pos s.out s.freeIx
  · exact hs.withStreams hs.1 s.cmdIn s.pos (s.out.drop n) s.freeIx
  · exact ⟨parserInv_idle, trivial⟩

end Sys2Proof.Machine
end

section
/-!
PROOFS. Byte order where a block is read and a digest is written (20_memory.md R51, R54).
-/

namespace Sys2Proof.Machine

theorem messageWords_getElem (block : Vector Byte 64) (i : Fin 16) :
    (messageWords block)[i] = le32 block[4 * i.val] block[4 * i.val + 1] block[4 * i.val + 2] block[4 * i.val + 3] := by
  simp [messageWords]

theorem chainBytes_getElem (h : Vector Word 8) (j : Fin 8) (k : Fin 4) :
    (chainBytes h)[4 * j.val + k.val] = byteOf h[j] k.val := by
  have hword : (4 * j.val + k.val) / 4 = j.val := by omega
  have hbyte : (4 * j.val + k.val) % 4 = k.val := by omega
  unfold chainBytes
  simp [hword, hbyte]

/-- Settles O19: the values of LE32 and of a word's byte. -/
theorem wordsAndDigestBytesAreLittleEndian : Obligations.WordsAndDigestBytesAreLittleEndian := by
  constructor
  · intro block i
    rw [messageWords_getElem, le32_toNat, littleEndian]
  · intro h j k
    rw [chainBytes_getElem, byteOf_toNat]

end Sys2Proof.Machine
end

section
/-!
PROOFS. The encoding of a well-formed command read back from the stream (30_encoding.md R70 to R76): the fields of the header are the
operands, so the header announces the payload's length and the payload is cut where its operands meet.
-/

namespace Sys2Proof

theorem bool_eq_of_toNat_eq {a b : Bool} (h : a.toNat = b.toNat) : a = b :=
  Function.LeftInverse.injective Bool.ofNat_toNat h

/-- The header fields of CONFIG carry its operands and the lengths of its payload operands (30_encoding.md R72). -/
theorem configHeader_fields {dl : BitVec 8} {key : List Byte} {salt pers : Option (List Byte)} {uf : Bool} {h : Word}
    (hh : h = configHeader dl key salt pers uf) :
    h.toNat % 16 = 1 ∧
    hdrDL h = dl ∧
    (hdrKL h).toNat = key.length % 2 ^ 8 ∧
    hdrSP h = salt.isSome ∧
    hdrPP h = pers.isSome ∧
    (hdrSL h).toNat = (salt.getD []).length % 2 ^ 4 ∧
    (hdrPL h).toNat = (pers.getD []).length % 2 ^ 4 ∧
    hdrUF h = uf ∧
    hdrRSV h = false := by
  have hsum := configHeader_toNat dl key salt pers uf
  rw [← hh] at hsum
  have hdl := dl.isLt
  have hsp := salt.isSome.toNat_le
  have hpp := pers.isSome.toNat_le
  have huf := uf.toNat_le
  refine ⟨?_, BitVec.eq_of_toNat_eq ?_, ?_, bool_eq_of_toNat_eq ?_, bool_eq_of_toNat_eq ?_, ?_, ?_, bool_eq_of_toNat_eq ?_,
    bool_eq_of_toNat_eq ?_⟩
  · omega
  · rw [hdrDL_toNat]; omega
  · rw [hdrKL_toNat]; omega
  · rw [hdrSP_toNat]; omega
  · rw [hdrPP_toNat]; omega
  · rw [hdrSL_toNat]; omega
  · rw [hdrPL_toNat]; omega
  · rw [hdrUF_toNat]; omega
  · rw [hdrRSV_toNat, Bool.toNat_false]; omega

theorem updateHeader_fields (et : ElementType) (data : List Byte) :
    (updateHeader et data).toNat % 16 = 2 ∧
    hdrET (updateHeader et data) = elementTypeBits et ∧
    (hdrLEN (updateHeader et data)).toNat = data.length % 2 ^ 26 := by
  have hsum := updateHeader_toNat et data
  have het := (elementTypeBits et).isLt
  refine ⟨?_, BitVec.eq_of_toNat_eq ?_, ?_⟩
  · omega
  · rw [hdrET_toNat]; omega
  · rw [hdrLEN_toNat]; omega

theorem elementTypeOf_elementTypeBits (et : ElementType) : elementTypeOf (elementTypeBits et) = et := by
  cases et <;> rfl

theorem fieldFits_iff (bytes : Option (List Byte)) : fieldFits bytes = true ↔ (bytes.getD []).length < 2 ^ 4 := by
  cases bytes <;> simp [fieldFits]

theorem config_wf_iff (dl : BitVec 8) (key : List Byte) (salt pers : Option (List Byte)) (uf : Bool) :
    (Instr.config dl key salt pers uf).wf = true ↔
      key.length < 2 ^ 8 ∧ (salt.getD []).length < 2 ^ 4 ∧ (pers.getD []).length < 2 ^ 4 := by
  simp only [Instr.wf, Bool.and_eq_true, fieldFits_iff, keyFits, decide_eq_true_eq, and_assoc]

theorem update_wf_iff (et : ElementType) (data : List Byte) :
    (Instr.update et data).wf = true ↔ data.length < 2 ^ 26 := by
  simp only [Instr.wf, dataFits, decide_eq_true_eq]

/-- The header of a well-formed command announces the length of its payload. -/
theorem payloadLength_headerOf {i : Instr} (hwf : i.wf = true) : payloadLength (headerOf i) = (payloadOf i).length := by
  cases i with
  | config dl key salt pers uf =>
    obtain ⟨hkey, hsalt, hpers⟩ := (config_wf_iff ..).1 hwf
    obtain ⟨hopc, -, hkl, hsp, hpp, hsl, hpl, -, -⟩ := configHeader_fields (rfl : configHeader dl key salt pers uf = _)
    rw [headerOf, payloadLength_config hopc, hkl, hsp, hpp, hsl, hpl, Nat.mod_eq_of_lt hkey, Nat.mod_eq_of_lt hsalt,
      Nat.mod_eq_of_lt hpers]
    cases salt <;> cases pers <;> simp [payloadOf, Nat.add_assoc]
  | update et data =>
    obtain ⟨hopc, -, hlen⟩ := updateHeader_fields et data
    rw [headerOf, payloadLength_update hopc, hlen, Nat.mod_eq_of_lt ((update_wf_iff et data).1 hwf), payloadOf]
  | digest => decide

/-- The header of a CONFIG is legal: an absent salt or personalization has length 0. -/
theorem headerKind_configHeader (dl : BitVec 8) (key : List Byte) (salt pers : Option (List Byte)) (uf : Bool) :
    headerKind (configHeader dl key salt pers uf) = .config := by
  obtain ⟨hopc, -, -, hsp, hpp, hsl, hpl, -, hrsv⟩ := configHeader_fields (rfl : configHeader dl key salt pers uf = _)
  have hsalt : salt = none → hdrSL (configHeader dl key salt pers uf) = 0 := by
    rintro rfl; exact BitVec.eq_of_toNat_eq hsl
  have hpers : pers = none → hdrPL (configHeader dl key salt pers uf) = 0 := by
    rintro rfl; exact BitVec.eq_of_toNat_eq hpl
  rw [headerKind_config hopc, hrsv, hsp, hpp]
  cases salt <;> cases pers <;> simp [hsalt, hpers]

/-- Cutting the payload of a well-formed CONFIG at the lengths of its header gives the operands back (30_encoding.md R73). -/
theorem configOperands_configHeader {dl : BitVec 8} {key : List Byte} {salt pers : Option (List Byte)} {uf : Bool}
    (hwf : (Instr.config dl key salt pers uf).wf = true) :
    configOperands (configHeader dl key salt pers uf) (key ++ salt.getD [] ++ pers.getD []) = .config dl key salt pers uf := by
  obtain ⟨hkey, hsalt, hpers⟩ := (config_wf_iff ..).1 hwf
  obtain ⟨-, hdl, hkl, hsp, hpp, hsl, hpl, huf, -⟩ := configHeader_fields (rfl : configHeader dl key salt pers uf = _)
  rw [Nat.mod_eq_of_lt hkey] at hkl
  rw [Nat.mod_eq_of_lt hsalt] at hsl
  rw [Nat.mod_eq_of_lt hpers] at hpl
  simp only [configOperands, hdl, hkl, hsp, hpp, hsl, hpl, huf]
  cases salt <;> cases pers <;> simp

end Sys2Proof
end

section
/-!
PROOFS. A stream of commands runs as the sequence of their meanings (20_memory.md R60; 30_encoding.md R70). A step runs the encoded
command at the head of the stream, and no command reads or writes the stream and the position, so each may run with the rest of the
stream still waiting or with an empty one.
-/

namespace Sys2Proof.Machine

/-- The fetch of one producer's well-formed command: the command, and the stream after it. -/
theorem fetch_encode {i : Instr} (hwf : i.wf = true) (producer : Nat) (after : List StreamByte) :
    fetch (tagged producer (encode i) ++ after) = .command i (encode i).length after := by
  rw [encode, fetch_frame _ _ _ _ (payloadLength_headerOf hwf).symm, List.length_append, bytesLE_length]
  cases i with
  | config dl key salt pers uf => simp only [headerOf, headerKind_configHeader, payloadOf, configOperands_configHeader hwf]
  | update et data =>
    obtain ⟨hopc, het, -⟩ := updateHeader_fields et data
    simp only [headerOf, headerKind_update hopc, het, elementTypeOf_elementTypeBits, payloadOf]
  | digest => rfl

/-- A step runs the well-formed command at the head of the stream (30_encoding.md R70). -/
theorem step_of_arrived_encode {s : State} {i : Instr} {producer : Nat} {after : List StreamByte} (hwf : i.wf = true)
    (h : s.arrived = tagged producer (encode i) ++ after) : step s = exec i (s.consume (encode i).length after) := by
  rw [step, ← State.arrived, h, fetch_encode hwf]

/-! ### The stream and the position are no operand -/

/-- The state with another command stream and another position. -/
def State.withStream (s : State) (cmd : List StreamByte) (pos : Nat) : State := { s with cmdIn := cmd, pos := pos }

section
variable (s : State) (cmd : List StreamByte) (pos : Nat)

@[simp] theorem State.withStream_t0 : (s.withStream cmd pos).t0 = s.t0 := rfl
@[simp] theorem State.withStream_t1 : (s.withStream cmd pos).t1 = s.t1 := rfl
@[simp] theorem State.withStream_blen : (s.withStream cmd pos).blen = s.blen := rfl
@[simp] theorem State.withStream_phase : (s.withStream cmd pos).phase = s.phase := rfl

theorem raiseOneOf_withStream (e : Status) (others : List Status) :
    raiseOneOf e others (s.withStream cmd pos) =
      andThen (raiseOneOf e others s) fun t => .next (t.withStream cmd pos) := by
  rw [raiseOneOf_next, raiseOneOf_next]
  rfl

theorem compressBlock_withStream (block : Vector Byte 64) (n : Nat) (f0 f1 : Word) :
    compressBlock block n f0 f1 (s.withStream cmd pos) =
      andThen (compressBlock block n f0 f1 s) fun t => .next (t.withStream cmd pos) := by
  unfold compressBlock
  rw [State.withStream_t0, State.withStream_t1]
  cases addCounter s.t0 s.t1 n <;> rfl

theorem drainBlocks_withStream (fuel : Nat) (data : List Byte) :
    drainBlocks fuel data (s.withStream cmd pos) =
      andThen (drainBlocks fuel data s) fun r => .next (r.1.withStream cmd pos, r.2) := by
  induction fuel generalizing data s with
  | zero => rfl
  | succ fuel ih =>
    rw [drainBlocks, drainBlocks]
    split
    · simp only [compressBlock_withStream, andThen_assoc, andThen_of_next, ih]
    · rfl

theorem topUp_withStream (data : List Byte) :
    topUp data (s.withStream cmd pos) = andThen (topUp data s) fun t => .next (t.withStream cmd pos) := by
  simp only [topUp, compressBlock_withStream, andThen_assoc, andThen_of_next]
  rfl

theorem absorb_withStream (data : List Byte) :
    absorb data (s.withStream cmd pos) = andThen (absorb data s) fun t => .next (t.withStream cmd pos) := by
  simp only [absorb]
  rw [State.withStream_blen]
  split
  · simp only [topUp_withStream, drainBlocks_withStream, andThen_assoc, andThen_of_next]
    rfl
  · rfl

theorem finalize_withStream :
    finalize (s.withStream cmd pos) = andThen (finalize s) fun t => .next (t.withStream cmd pos) := by
  simp only [finalize, compressBlock]
  rw [State.withStream_t0, State.withStream_t1, State.withStream_blen]
  cases addCounter s.t0 s.t1 s.blen.val <;> rfl

theorem execConfig_withStream (dl : BitVec 8) (key : List Byte) (salt pers : Option (List Byte)) (uf : Bool) :
    execConfig dl key salt pers uf (s.withStream cmd pos) =
      andThen (execConfig dl key salt pers uf s) fun t => .next (t.withStream cmd pos) := by
  unfold execConfig
  split
  · rfl
  · exact raiseOneOf_withStream s cmd pos _ _

theorem execUpdate_withStream (et : ElementType) (data : List Byte) :
    execUpdate et data (s.withStream cmd pos) =
      andThen (execUpdate et data s) fun t => .next (t.withStream cmd pos) := by
  unfold execUpdate
  rw [State.withStream_phase]
  split
  · rfl
  · split
    · exact raiseOneOf_withStream s cmd pos _ _
    · split
      · rfl
      · rw [absorb_withStream, andThen_assoc, andThen_assoc]
        rfl

theorem execDigest_withStream :
    execDigest (s.withStream cmd pos) = andThen (execDigest s) fun t => .next (t.withStream cmd pos) := by
  unfold execDigest
  rw [State.withStream_phase]
  cases s.phase with
  | unconfigured => rfl
  | finished => rfl
  | absorbing =>
    dsimp only
    rw [finalize_withStream, andThen_assoc, andThen_assoc]
    rfl

/-- A command gives the same outcome on any stream and at any position, which it leaves as they are. -/
theorem exec_withStream (i : Instr) :
    exec i (s.withStream cmd pos) = andThen (exec i s) fun t => .next (t.withStream cmd pos) := by
  cases i with
  | config dl key salt pers uf => exact execConfig_withStream s cmd pos dl key salt pers uf
  | update et data => exact execUpdate_withStream s cmd pos et data
  | digest => exact execDigest_withStream s cmd pos

end

/-! ### Runs -/

section
variable {M : Host.Core} {k : Nat} {s : M.State}

theorem run_succ_of_next {t : M.State} (h : M.step s = .next t) : M.run (k + 1) s = M.run k t := by
  rw [Host.Core.run, h]

theorem run_succ_of_fault {r : M.Fault} (h : M.step s = .fault r) : M.run (k + 1) s = .fault r := by
  rw [Host.Core.run, h]

theorem run_succ_of_refused {r : M.Refusal} (h : M.step s = .refused r) : M.run (k + 1) s = .refused r := by
  rw [Host.Core.run, h]

end

/-- The host's run of the engine, at the engine's own types. -/
def runSteps (k : Nat) (s : State) : Host.Outcome State Fault Refusal := Host.Core.run Sys2Proof.core k s

theorem runSteps_succ (k : Nat) (s : State) : runSteps (k + 1) s = andThen (step s) (runSteps k) := by
  cases h : step s with
  | next t => exact run_succ_of_next h
  | fault r => exact run_succ_of_fault h
  | refused r => exact run_succ_of_refused h

theorem streamOf_cons (producer : Nat) (i : Instr) (is : List Instr) :
    streamOf producer (i :: is) = tagged producer (encode i) ++ streamOf producer is := by
  simp [streamOf]

/-- With an idle parser, consuming a command moves the stream and the position alone. -/
theorem consume_of_idle {s : State} (hparser : s.parser = .header []) (n : Nat) (rest : List StreamByte) :
    s.consume n rest = s.withStream rest (s.pos + n) := by
  rw [State.consume, ← hparser]; rfl

/-- By induction over the commands: the first step runs the first command with the other commands' bytes waiting, and the command given
directly differs from it in stream and position alone. -/
theorem runSteps_streamOf (is : List Instr) (producer : Nat) (s : State) (hwf : ∀ i ∈ is, i.wf = true)
    (hparser : s.parser = .header []) (hcmd : s.cmdIn = streamOf producer is) :
    runSteps is.length s = execAll is (s.withStream [] (s.pos + (is.flatMap encode).length)) := by
  induction is generalizing s with
  | nil => cases s; cases hcmd; rfl
  | cons i is ih =>
    obtain ⟨hi, his⟩ := List.forall_mem_cons.1 hwf
    have harrived : s.arrived = tagged producer (encode i) ++ streamOf producer is := by
      rw [State.arrived, hparser, hcmd, streamOf_cons, parserBytes_header, List.nil_append]
    rw [List.length_cons, runSteps_succ, step_of_arrived_encode hi harrived, consume_of_idle hparser, execAll,
      exec_withStream, exec_withStream, andThen_assoc, andThen_assoc]
    cases hrun : exec i s with
    | fault r => rfl
    | refused r => rfl
    | next t =>
      have htparser : t.parser = .header [] := (exec_streams hrun).1.trans hparser
      rw [andThen_of_next, andThen_of_next, andThen_of_next,
        ih (t.withStream (streamOf producer is) (s.pos + (encode i).length)) his htparser rfl]
      simp [State.withStream, Nat.add_assoc]

/-- Settles O12, by induction over the commands. -/
theorem streamRunsAsTheCommandSequence : Obligations.StreamRunsAsTheCommandSequence := runSteps_streamOf

end Sys2Proof.Machine
end

section
/-!
PROOFS. A command faults by counter overflow alone (60_exceptions.md R225), so FramingViolation comes from the fetch alone
(20_memory.md R63).
-/

namespace Sys2Proof.Machine

theorem compressBlock_fault {block : Vector Byte 64} {n : Nat} {f0 f1 : Word} {s : State} {r : Fault}
    (h : compressBlock block n f0 f1 s = .fault r) : r = .counterOverflow := by
  obtain ⟨-, hrun⟩ | ⟨t0, t1, -, hrun⟩ := compressBlock_cases block n f0 f1 s <;> rw [hrun] at h
  · exact (Host.Outcome.fault.inj h).symm
  · cases h

theorem topUp_fault {data : List Byte} {s : State} {r : Fault} (h : topUp data s = .fault r) : r = .counterOverflow := by
  obtain h | ⟨t, -, h⟩ := (andThen_eq_fault _ _).1 h
  · exact compressBlock_fault h
  · cases h

theorem drainBlocks_fault {fuel : Nat} {data : List Byte} {s : State} {r : Fault}
    (h : drainBlocks fuel data s = .fault r) : r = .counterOverflow := by
  induction fuel generalizing data s with
  | zero => cases h
  | succ fuel ih =>
    rw [drainBlocks] at h
    split at h
    · obtain h | ⟨t, -, h⟩ := (andThen_eq_fault _ _).1 h
      · exact compressBlock_fault h
      · exact ih h
    · cases h

theorem absorb_fault {data : List Byte} {s : State} {r : Fault} (h : absorb data s = .fault r) : r = .counterOverflow := by
  rw [absorb] at h
  split at h
  · obtain h | ⟨t, -, h⟩ := (andThen_eq_fault _ _).1 h
    · exact topUp_fault h
    · obtain h | ⟨p, -, h⟩ := (andThen_eq_fault _ _).1 h
      · exact drainBlocks_fault h
      · cases h
  · cases h

theorem finalize_fault {s : State} {r : Fault} (h : finalize s = .fault r) : r = .counterOverflow := by
  obtain h | ⟨t, -, h⟩ := (andThen_eq_fault _ _).1 h
  · exact compressBlock_fault h
  · cases h

theorem raiseOneOf_ne_fault (e : Status) (others : List Status) (s : State) (r : Fault) : raiseOneOf e others s ≠ .fault r := by
  rw [raiseOneOf_next]; exact nofun

/-- A command that faults overflows the byte counter. -/
theorem exec_fault {i : Instr} {s : State} {r : Fault} (h : exec i s = .fault r) : r = .counterOverflow := by
  cases i with
  | config dl key salt pers uf =>
    change execConfig dl key salt pers uf s = .fault r at h
    obtain ⟨-, hrun⟩ | ⟨e, others, -, hrun⟩ := execConfig_cases dl key salt pers uf s <;> rw [hrun] at h
    · cases h
    · exact (raiseOneOf_ne_fault _ _ _ _ h).elim
  | update et data =>
    change execUpdate et data s = .fault r at h
    obtain ⟨-, hrun⟩ | ⟨-, e, others, -, hrun⟩ | ⟨-, -, ⟨-, hrun⟩ | ⟨-, hrun⟩⟩ := execUpdate_cases et data s <;> rw [hrun] at h
    · cases h
    · exact (raiseOneOf_ne_fault _ _ _ _ h).elim
    · cases h
    · obtain h | ⟨t, -, h⟩ := (andThen_eq_fault _ _).1 h
      · exact absorb_fault h
      · cases h
  | digest =>
    change execDigest s = .fault r at h
    obtain ⟨-, hrun⟩ | ⟨-, hrun⟩ | ⟨-, hrun⟩ := execDigest_cases s <;> rw [hrun] at h
    · cases h
    · cases h
    · obtain h | ⟨t, -, h⟩ := (andThen_eq_fault _ _).1 h
      · exact finalize_fault h
      · cases h

/-- The step ends in FramingViolation exactly when the fetch finds two producers. -/
theorem step_eq_framingViolation_iff (s : State) : step s = .fault .framingViolation ↔ fetch s.arrived = .torn := by
  rw [State.arrived]
  obtain ⟨hf, hrun⟩ | ⟨held, hf, hrun⟩ | ⟨why, len, rest, hf, hrun⟩ | ⟨i, len, rest, hf, hrun⟩ := step_cases s <;>
    rw [hf, hrun]
  · simp
  · simp
  · simp [raise_eq]
  · simpa using fun h => nomatch exec_fault h

theorem fetch_eq_torn_iff (l : List StreamByte) :
    fetch l = .torn ↔ oneProducer (l.take (frameLength (plainBytes l))) = false := by
  obtain ⟨hone, hf⟩ | ⟨hone, ⟨-, hf⟩ | ⟨-, ⟨_, _, -, hf⟩ | ⟨_, _, -, hf⟩⟩⟩ := fetch_cases l <;> simp [hone, hf]

theorem oneProducer_eq_false_iff (l : List StreamByte) :
    oneProducer l = false ↔ ∃ a ∈ l, ∃ b ∈ l, a.producer ≠ b.producer := by
  simp [← Bool.not_eq_true, oneProducer_iff]

/-- Settles O10: the fetch finds two producers exactly when two bytes of the frame differ in theirs. -/
theorem interleavedProducersFault : Obligations.InterleavedProducersFault := by
  intro s
  rw [step_eq_framingViolation_iff, fetch_eq_torn_iff, oneProducer_eq_false_iff]

end Sys2Proof.Machine
end

section
/-!
PROOFS. What a header announces, by the values of its bits (30_encoding.md R83, R84): CONFIG, UPDATE, DIGEST or no command, and the
length of the payload.
-/

namespace Sys2Proof

/-- Which headers are a CONFIG: no reserved bit, and no length of an absent salt or personalization (30_encoding.md R78). -/
theorem headerKind_eq_config_iff (h : Word) :
    headerKind h = .config ↔
      h.toNat % 16 = 1 ∧ hdrRSV h = false ∧ (hdrSP h = true ∨ hdrSL h = 0) ∧ (hdrPP h = true ∨ hdrPL h = 0) := by
  by_cases hopc : h.toNat % 16 = 1
  · rw [headerKind_config hopc]
    split_ifs with hrsv hsalt hpers
    · simp [hrsv]
    · simp_all
    · simp_all
    · simp_all [or_iff_not_imp_left]
  · simp [hopc, mt opcode_of_headerKind.1 hopc]

theorem headerKind_eq_update_iff (h : Word) : headerKind h = .update ↔ h.toNat % 16 = 2 :=
  ⟨opcode_of_headerKind.2.1, headerKind_update⟩

/-- The one DIGEST header: the opcode, and zero in every other bit. -/
theorem headerKind_eq_digest_iff (h : Word) : headerKind h = .digest ↔ h = 3#32 := by
  constructor
  · intro hkind
    have hopc := opcode_of_headerKind.2.2 hkind
    have hreserved : h.extractLsb' 4 28 = 0#28 := by
      rw [headerKind_digest hopc] at hkind
      split_ifs at hkind with hbits
      simpa using hbits
    have hhigh := congrArg BitVec.toNat hreserved
    rw [extractLsb'_toNat_eq, BitVec.toNat_ofNat] at hhigh
    have := h.isLt
    apply BitVec.eq_of_toNat_eq
    rw [BitVec.toNat_ofNat]
    omega
  · rintro rfl
    decide

theorem headerKind_illegal_iff (h : Word) :
    (∃ why, headerKind h = .illegal why) ↔ headerKind h ≠ .config ∧ headerKind h ≠ .update ∧ headerKind h ≠ .digest := by
  cases headerKind h <;> simp

theorem hdrSL_eq_zero_iff (h : Word) : hdrSL h = 0 ↔ h.toNat / 2 ^ 22 % 16 = 0 := by
  rw [← BitVec.toNat_inj, hdrSL_toNat]; rfl

theorem hdrPL_eq_zero_iff (h : Word) : hdrPL h = 0 ↔ h.toNat / 2 ^ 26 % 16 = 0 := by
  rw [← BitVec.toNat_inj, hdrPL_toNat]; rfl

/-- Settles O4: one equivalence a kind, with the length fields read as numbers. -/
theorem headerDecodesToExactlyOneKind : Obligations.HeaderDecodesToExactlyOneKind := by
  intro h
  refine ⟨?_, headerKind_eq_update_iff h, headerKind_eq_digest_iff h, headerKind_illegal_iff h⟩
  rw [headerKind_eq_config_iff, hdrSL_eq_zero_iff, hdrPL_eq_zero_iff]
  rfl

/-- A bit used as a factor keeps a length or drops it. -/
theorem bit_mul_le (b : Bool) (n : Nat) : b.toNat * n ≤ n := by
  cases b <;> simp

/-- UPDATE has the longest payload: LEN has 26 bits. -/
theorem payloadLength_le (h : Word) : payloadLength h ≤ 2 ^ 26 - 1 := by
  by_cases h1 : h.toNat % 16 = 1
  · rw [payloadLength_config h1]
    have hkl := (hdrKL h).isLt
    have hsl := (hdrSL h).isLt
    have hpl := (hdrPL h).isLt
    have hsalt := bit_mul_le (hdrSP h) (hdrSL h).toNat
    have hpers := bit_mul_le (hdrPP h) (hdrPL h).toNat
    omega
  by_cases h2 : h.toNat % 16 = 2
  · rw [payloadLength_update h2]
    have := (hdrLEN h).isLt
    omega
  · rw [payloadLength_other h1 h2]
    omega

/-- The payload length of a CONFIG header in the header's bits. -/
theorem payloadLength_config_bits {h : Word} (hopc : h.toNat % 16 = 1) :
    payloadLength h = h.toNat / 2 ^ 12 % 256 + h.toNat / 2 ^ 20 % 2 * (h.toNat / 2 ^ 22 % 16)
      + h.toNat / 2 ^ 21 % 2 * (h.toNat / 2 ^ 26 % 16) := by
  rw [payloadLength_config hopc, hdrKL_toNat, hdrSP_toNat, hdrSL_toNat, hdrPP_toNat, hdrPL_toNat]
  rfl

/-- Settles O5: the length rule of each opcode, and the longest payload. -/
theorem lengthComesFromTheHeader : Obligations.LengthComesFromTheHeader := by
  intro h
  refine ⟨payloadLength_config_bits, fun hopc => ?_, payloadLength_other, rfl, Nat.add_le_add_left (payloadLength_le h) 4⟩
  rw [payloadLength_update hopc, hdrLEN_toNat]
  have := h.isLt
  omega

end Sys2Proof
end

section
/-!
PROOFS. Decoding and encoding are inverse (30_encoding.md R70 to R76, R80, R88): a frame that decodes to a command has that command's
header and payload, since every bit of a legal header is an operand and the payload is cut into operands without a gap.
-/

namespace Sys2Proof

/-! ### From the command to the bytes and back -/

theorem decodeFrame_headerOf {i : Instr} (hwf : i.wf = true) (rest : List Byte) :
    decodeFrame (headerOf i) (payloadOf i) rest = .command i rest := by
  cases i with
  | config dl key salt pers uf =>
    simp only [decodeFrame, headerOf, headerKind_configHeader, payloadOf, configOperands_configHeader hwf]
  | update et data =>
    obtain ⟨hopc, het, -⟩ := updateHeader_fields et data
    simp only [decodeFrame, headerOf, headerKind_update hopc, het, elementTypeOf_elementTypeBits, payloadOf]
  | digest => rfl

theorem decode_encode {i : Instr} (hwf : i.wf = true) (rest : List Byte) : decode (encode i ++ rest) = .command i rest := by
  rw [encode, List.append_assoc, decode_bytesLE, payloadLength_headerOf hwf, if_neg (by simp), List.take_left, List.drop_left,
    decodeFrame_headerOf hwf]

/-- Settles O2: the encoded header announces the payload, and the frame of the two is the command. -/
theorem decodeOfEncodeIsTheCommand : Obligations.DecodeOfEncodeIsTheCommand := fun _ rest hwf => decode_encode hwf rest

/-! ### From the bytes to the command and back -/

/-- A header whose fields are the operands of a CONFIG is that CONFIG's header: the fields and the zero bit 31 are all its bits. -/
theorem configHeader_eq_of_fields {dl : BitVec 8} {key : List Byte} {salt pers : Option (List Byte)} {uf : Bool} {h : Word}
    (hopc : h.toNat % 16 = 1) (hrsv : hdrRSV h = false) (hdl : dl = hdrDL h) (hkl : key.length = (hdrKL h).toNat)
    (hsp : salt.isSome = hdrSP h) (hpp : pers.isSome = hdrPP h) (hsl : (salt.getD []).length = (hdrSL h).toNat)
    (hpl : (pers.getD []).length = (hdrPL h).toNat) (huf : uf = hdrUF h) : configHeader dl key salt pers uf = h := by
  apply BitVec.eq_of_toNat_eq
  have hbit31 := hdrRSV_toNat h
  rw [hrsv, Bool.toNat_false] at hbit31
  rw [configHeader_toNat, hdl, hkl, hsp, hpp, hsl, hpl, huf, hdrDL_toNat, hdrKL_toNat, hdrSP_toNat, hdrPP_toNat, hdrSL_toNat,
    hdrPL_toNat, hdrUF_toNat]
  have := h.isLt
  omega

theorem elementTypeBits_elementTypeOf (et : BitVec 2) : elementTypeBits (elementTypeOf et) = et := by
  decide +revert

theorem updateHeader_of_fields {h : Word} {p : List Byte} (hopc : h.toNat % 16 = 2) (hlen : p.length = (hdrLEN h).toNat) :
    updateHeader (elementTypeOf (hdrET h)) p = h := by
  apply BitVec.eq_of_toNat_eq
  rw [updateHeader_toNat, elementTypeBits_elementTypeOf, hlen, hdrET_toNat, hdrLEN_toNat]
  have := h.isLt
  omega

/-- The frame `h`, `p` is the encoding of the well-formed command `i`. -/
def IsFrameOf (h : Word) (p : List Byte) (i : Instr) : Prop := i.wf = true ∧ headerOf i = h ∧ payloadOf i = p

theorem IsFrameOf.encode_eq {h : Word} {p : List Byte} {i : Instr} (hi : IsFrameOf h p i) : encode i = bytesLE h ++ p := by
  obtain ⟨-, hheader, hpayload⟩ := hi
  rw [encode, hheader, hpayload]

/-- The bytes of an operand that the header may leave out. -/
theorem getD_optional (present : Bool) (bytes : List Byte) (n : Nat) :
    (if present then some (bytes.take n) else none).getD [] = bytes.take (present.toNat * n) := by
  cases present <;> simp

theorem isSome_optional (present : Bool) (bytes : List Byte) : (if present then some bytes else none).isSome = present := by
  cases present <;> rfl

/-- In a legal header an operand that is left out has length 0. -/
theorem bit_mul_of_legal {w : Nat} {present : Bool} {n : BitVec w} (h : present = true ∨ n = 0) :
    present.toNat * n.toNat = n.toNat := by
  obtain rfl | rfl := h <;> simp

/-- The operands of a legal CONFIG header are its fields and the three stretches of its payload. -/
theorem configOperands_isFrameOf {h : Word} {p : List Byte} (hkind : headerKind h = .config)
    (hp : p.length = payloadLength h) : IsFrameOf h p (configOperands h p) := by
  obtain ⟨hopc, hrsv, hsl, hpl⟩ := (headerKind_eq_config_iff h).1 hkind
  rw [payloadLength_config hopc, bit_mul_of_legal hsl, bit_mul_of_legal hpl] at hp
  have hkey : (p.take (hdrKL h).toNat).length = (hdrKL h).toNat := by
    rw [List.length_take]; omega
  have hsalt : ((p.drop (hdrKL h).toNat).take (hdrSL h).toNat).length = (hdrSL h).toNat := by
    rw [List.length_take, List.length_drop]; omega
  have hpers : ((p.drop ((hdrKL h).toNat + (hdrSL h).toNat)).take (hdrPL h).toNat).length = (hdrPL h).toNat := by
    rw [List.length_take, List.length_drop]; omega
  simp only [configOperands, IsFrameOf, config_wf_iff, headerOf, payloadOf, getD_optional, bit_mul_of_legal hsl,
    bit_mul_of_legal hpl]
  refine ⟨?_, configHeader_eq_of_fields hopc hrsv rfl hkey (isSome_optional ..) (isSome_optional ..) ?_ ?_ rfl, ?_⟩
  · rw [hkey, hsalt, hpers]
    exact ⟨(hdrKL h).isLt, (hdrSL h).isLt, (hdrPL h).isLt⟩
  · rwa [getD_optional, bit_mul_of_legal hsl]
  · rwa [getD_optional, bit_mul_of_legal hpl]
  · rw [← List.take_add, ← List.take_add, List.take_of_length_le hp.le]

theorem update_isFrameOf {h : Word} {p : List Byte} (hkind : headerKind h = .update) (hp : p.length = payloadLength h) :
    IsFrameOf h p (.update (elementTypeOf (hdrET h)) p) := by
  have hopc := (headerKind_eq_update_iff h).1 hkind
  rw [payloadLength_update hopc] at hp
  refine ⟨?_, updateHeader_of_fields hopc hp, rfl⟩
  rw [update_wf_iff, hp]
  exact (hdrLEN h).isLt

theorem digest_isFrameOf {h : Word} {p : List Byte} (hkind : headerKind h = .digest) (hp : p.length = payloadLength h) :
    IsFrameOf h p .digest := by
  obtain rfl := (headerKind_eq_digest_iff h).1 hkind
  exact ⟨rfl, rfl, (List.length_eq_zero_iff.1 hp).symm⟩

theorem isFrameOf_of_decodeFrame {h : Word} {p rest rest' : List Byte} {i : Instr} (hp : p.length = payloadLength h)
    (hd : decodeFrame h p rest = .command i rest') : IsFrameOf h p i ∧ rest' = rest := by
  unfold decodeFrame at hd
  split at hd
  next hkind =>
    obtain ⟨rfl, rfl⟩ := Decoded.command.inj hd
    exact ⟨configOperands_isFrameOf hkind hp, rfl⟩
  next hkind =>
    obtain ⟨rfl, rfl⟩ := Decoded.command.inj hd
    exact ⟨update_isFrameOf hkind hp, rfl⟩
  next hkind =>
    obtain ⟨rfl, rfl⟩ := Decoded.command.inj hd
    exact ⟨digest_isFrameOf hkind hp, rfl⟩
  next => cases hd

/-- Settles O3: bytes that decode to a command are a header and its whole payload, which are that command's, and what follows them. -/
theorem encodeOfDecodeIsTheBytes : Obligations.EncodeOfDecodeIsTheBytes := by
  intro bytes rest i hd
  obtain ⟨-, hwait, -⟩ | ⟨h, after, rfl⟩ := bytes_cases bytes
  · rw [hwait] at hd
    cases hd
  · rw [decode_bytesLE] at hd
    split_ifs at hd with hshort
    obtain ⟨hframe, rfl⟩ := isFrameOf_of_decodeFrame (List.length_take_of_le (Nat.le_of_not_lt hshort)) hd
    have hbytes : encode i ++ after.drop (payloadLength h) = bytesLE h ++ after := by
      rw [hframe.encode_eq, List.append_assoc, List.take_append_drop]
    obtain ⟨hwf, -, -⟩ := hframe
    exact ⟨hwf, hbytes⟩

/-! ### The spec's examples -/

/-- Bytes that are a well-formed command's encoding decode to it, with nothing left. -/
theorem decode_of_encode_eq {i : Instr} {bytes : List Byte} (hwf : i.wf = true) (h : encode i = bytes) :
    decode bytes = .command i [] := by
  rw [← h, ← List.append_nil (encode i)]
  exact decode_encode hwf []

/-- Settles O1: the bytes of each example are its command's encoding. -/
theorem specExampleHeadersDecode : Obligations.SpecExampleHeadersDecode := by
  refine ⟨by decide, fun key hkey => decode_of_encode_eq ?_ ?_, fun salt pers hsalt hpers => decode_of_encode_eq ?_ ?_, by decide,
    fun data hdata => decode_of_encode_eq ?_ ?_, by decide⟩
  · simp [config_wf_iff, hkey]
  · simp only [encode, headerOf, configHeader, lengthField, payloadOf, hkey, Option.getD_none, List.append_nil]
    exact congrArg (· ++ key) (by decide)
  · simp [config_wf_iff, hsalt, hpers]
  · simp only [encode, headerOf, configHeader, lengthField, payloadOf, hsalt, hpers, Option.getD_some, Option.isSome_some,
      List.nil_append]
    exact congrArg (· ++ (salt ++ pers)) (by decide)
  · simp [update_wf_iff, hdata]
  · simp only [encode, headerOf, updateHeader, lengthField, payloadOf, hdata]
    exact congrArg (· ++ data) (by decide)

end Sys2Proof
end

section
/-!
PROOFS. What a step does with the bytes at the head of the stream: an illegal command is consumed and answered (30_encoding.md R77, R78),
a command runs with the stream moved past it (R70; 10_state.md R32).
-/

namespace Sys2Proof.Machine

theorem step_of_fetch_illegal {s : State} {why : Illegal} {len : Nat} {rest : List StreamByte}
    (h : fetch s.arrived = .illegal why len rest) :
    step s = .next ((s.consume len rest).emit [statusCode .illegalCommand]) := by
  rw [step, ← State.arrived, h]
  rfl

/-- A header that is no command, with the payload that its length rule gives, is consumed and answered by IllegalCommand. -/
theorem step_of_arrived_illegal {s : State} {producer : Nat} {h : Word} {payload : List Byte} {after : List StreamByte}
    (harrived : s.arrived = tagged producer (bytesLE h ++ payload) ++ after) (hlen : payload.length = payloadLength h)
    (hkind : headerKind h ≠ .config ∧ headerKind h ≠ .update ∧ headerKind h ≠ .digest) :
    step s = .next ((s.consume (4 + payload.length) after).emit [statusCode .illegalCommand]) := by
  obtain ⟨why, hwhy⟩ := (headerKind_illegal_iff h).2 hkind
  apply step_of_fetch_illegal (why := why)
  rw [harrived, fetch_frame _ _ _ _ hlen, hwhy]

/-- Settles O7: a reserved opcode is the opcode of no command, and announces no payload. -/
theorem reservedOpcodeIsIllegal : Obligations.ReservedOpcodeIsIllegal := by
  intro s producer h after harrived h1 h2 h3
  refine step_of_arrived_illegal (payload := []) (by rwa [List.append_nil]) (payloadLength_other h1 h2).symm ?_
  exact ⟨mt opcode_of_headerKind.1 h1, mt opcode_of_headerKind.2.1 h2, mt opcode_of_headerKind.2.2 h3⟩

/-- Settles O8: the reserved forms are those that O4 leaves out of CONFIG and DIGEST. -/
theorem reservedFieldsAreIllegal : Obligations.ReservedFieldsAreIllegal := by
  intro s producer h payload after harrived hform
  obtain ⟨hconfig, hupdate, hdigest, -⟩ := headerDecodesToExactlyOneKind h
  obtain ⟨hopc, hreserved, hlen⟩ | ⟨hopc, hbits, rfl⟩ := hform
  · refine step_of_arrived_illegal harrived (hlen.trans (payloadLength_config_bits hopc).symm)
      ⟨fun hkind => ?_, mt hupdate.1 (by omega), mt opcode_of_headerKind.2.2 (by omega)⟩
    obtain ⟨-, hrsv, hsalt, hpers⟩ := hconfig.1 hkind
    obtain hbit | ⟨hsp, hsl⟩ | ⟨hpp, hpl⟩ := hreserved
    · exact Bool.false_ne_true (hrsv.symm.trans hbit)
    · exact hsl (hsalt.resolve_left (by rw [hsp]; exact Bool.false_ne_true))
    · exact hpl (hpers.resolve_left (by rw [hpp]; exact Bool.false_ne_true))
  · refine step_of_arrived_illegal harrived (payloadLength_other (by omega) (by omega)).symm
      ⟨mt opcode_of_headerKind.1 (by omega), mt hupdate.1 (by omega), fun hkind => ?_⟩
    rw [hdigest.1 hkind] at hbits
    exact hbits (by decide)

/-- Settles O6: the encoding is four header bytes and the payload. -/
theorem stepRunsTheDecodedCommand : Obligations.StepRunsTheDecodedCommand := by
  intro s i producer after hwf harrived
  have hlen : (encode i).length = 4 + (payloadOf i).length := by rw [encode, List.length_append, bytesLE_length]
  rw [step_of_arrived_encode hwf harrived, hlen]
  rfl

end Sys2Proof.Machine
end

section
/-!
PROOFS. The responses (30_encoding.md R81): one status byte, and after the OK of a DIGEST the digest.
-/

namespace Sys2Proof.Machine

theorem raiseOneOf_out {e : Status} {others : List Status} {s t : State} (h : raiseOneOf e others s = .next t) :
    ∃ e', t.out = s.out ++ [statusCode e'] := by
  rw [raiseOneOf_next] at h
  obtain rfl := Host.Outcome.next.inj h
  exact ⟨_, rfl⟩

theorem execConfig_out {dl : BitVec 8} {key : List Byte} {salt pers : Option (List Byte)} {uf : Bool} {s t : State}
    (h : execConfig dl key salt pers uf s = .next t) : ∃ e, t.out = s.out ++ [statusCode e] := by
  obtain ⟨-, hrun⟩ | ⟨e, others, -, hrun⟩ := execConfig_cases dl key salt pers uf s <;> rw [hrun] at h
  · obtain rfl := Host.Outcome.next.inj h
    exact ⟨.ok, rfl⟩
  · exact raiseOneOf_out h

theorem execUpdate_out {et : ElementType} {data : List Byte} {s t : State} (h : execUpdate et data s = .next t) :
    ∃ e, t.out = s.out ++ [statusCode e] := by
  obtain ⟨-, hrun⟩ | ⟨-, e, others, -, hrun⟩ | ⟨-, -, ⟨-, hrun⟩ | ⟨-, hrun⟩⟩ := execUpdate_cases et data s <;> rw [hrun] at h
  · obtain rfl := Host.Outcome.next.inj h
    exact ⟨.noInstance, rfl⟩
  · exact raiseOneOf_out h
  · obtain rfl := Host.Outcome.next.inj h
    exact ⟨.ok, rfl⟩
  · obtain ⟨u, hu, h⟩ := (andThen_eq_next _ _).1 h
    obtain rfl := Host.Outcome.next.inj h
    exact ⟨.ok, by rw [State.emit_out, (absorb_streams hu).2.2.2]⟩

/-- In phase UNCONFIGURED a DIGEST answers NoInstance; in the others one that goes on answers OK and the digest of the
state it leaves. -/
theorem execDigest_out {s t : State} (h : execDigest s = .next t) :
    (s.phase = .unconfigured ∧ t.out = s.out ++ [statusCode .noInstance]) ∨
    (s.phase ≠ .unconfigured ∧ t.out = s.out ++ statusCode .ok :: digestBytes t) := by
  obtain ⟨hphase, hrun⟩ | ⟨hphase, hrun⟩ | ⟨hphase, hrun⟩ := execDigest_cases s <;> rw [hrun] at h
  · obtain rfl := Host.Outcome.next.inj h
    exact .inl ⟨hphase, rfl⟩
  · obtain rfl := Host.Outcome.next.inj h
    exact .inr ⟨by simp [hphase], rfl⟩
  · obtain ⟨u, hu, h⟩ := (andThen_eq_next _ _).1 h
    obtain rfl := Host.Outcome.next.inj h
    refine .inr ⟨by simp [hphase], ?_⟩
    rw [State.emit_out, (finalize_streams hu).2.2.2]
    rfl

/-- Settles O40: the response of each command, and of a fetch that finds no command. -/
theorem responseFormat : Obligations.ResponseFormat := by
  refine ⟨fun i s t h => ?_, fun s why len rest hf => ⟨_, step_of_fetch_illegal hf, rfl⟩⟩
  cases i with
  | config dl key salt pers uf =>
    obtain ⟨e, hout⟩ := execConfig_out h
    exact .inr ⟨nofun, e, nofun, hout⟩
  | update et data =>
    obtain ⟨e, hout⟩ := execUpdate_out h
    exact .inr ⟨nofun, e, nofun, hout⟩
  | digest =>
    obtain ⟨hphase, hout⟩ | ⟨hphase, hout⟩ := execDigest_out h
    · exact .inr ⟨fun _ => hphase, .noInstance, nofun, hout⟩
    · exact .inl ⟨rfl, hphase, hout⟩

end Sys2Proof.Machine
end

section
/-!
PROOFS. How the host cuts a software update into UPDATE commands (30_encoding.md R86): the pieces are the bytes in order, and each fits
the length field when the loop's fuel covers the bytes.
-/

namespace Sys2Proof.Machine

theorem splitPayload_ne_nil (fuel : Nat) (bytes : List Byte) : splitPayload fuel bytes ≠ [] := by
  cases fuel with
  | zero => simp [splitPayload]
  | succ fuel => rw [splitPayload]; split <;> simp

theorem splitPayload_flatten (fuel : Nat) (bytes : List Byte) : (splitPayload fuel bytes).flatten = bytes := by
  induction fuel generalizing bytes with
  | zero => simp [splitPayload]
  | succ fuel ih =>
    rw [splitPayload]
    split
    · simp
    · rw [List.flatten_cons, ih, List.take_append_drop]

/-- Each turn of the loop takes off a whole piece, so `fuel` turns and the last piece carry `fuel + 1` pieces. -/
theorem length_le_of_mem_splitPayload {fuel : Nat} {bytes chunk : List Byte} (hfuel : bytes.length ≤ maxChunk * (fuel + 1))
    (hmem : chunk ∈ splitPayload fuel bytes) : chunk.length ≤ maxChunk := by
  induction fuel generalizing bytes with
  | zero =>
    obtain rfl := List.mem_singleton.1 hmem
    simpa using hfuel
  | succ fuel ih =>
    rw [splitPayload] at hmem
    split at hmem
    next hfits =>
      obtain rfl := List.mem_singleton.1 hmem
      exact hfits
    next =>
      obtain rfl | hmem := List.mem_cons.1 hmem
      · exact List.length_take_le _ _
      · refine ih ?_ hmem
        rw [Nat.mul_succ] at hfuel
        rw [List.length_drop]
        omega

/-- Settles O52: the pieces of the selected bytes, which are no more than the fuel. -/
theorem hostUpdateCarriesTheSelectedBytes : Obligations.HostUpdateCarriesTheSelectedBytes := by
  intro bytes offset length
  refine ⟨_, rfl, splitPayload_ne_nil _ _, splitPayload_flatten _ _, fun i hi => ?_⟩
  obtain ⟨chunk, hchunk, rfl⟩ := List.mem_map.1 hi
  have hselected : ((bytes.drop offset).take length).length ≤ bytes.length := by
    rw [List.length_take, List.length_drop]
    omega
  have hfits := length_le_of_mem_splitPayload (by rw [maxChunk]; omega) hchunk
  rw [update_wf_iff]
  exact Nat.lt_of_le_pred (by decide) hfits

end Sys2Proof.Machine
end

section
/-!
PROOFS. CONFIG (40_config.md R100 to R116): its errors, the initial chaining value by the optional words of its operands, and the two
things it can do, an instance or a report.
-/

namespace Sys2Proof.Machine

/-! ### The errors -/

/-- The errors of a CONFIG are a list of exactly those of R101 to R105 that apply. -/
theorem mem_configErrors_iff (e : Status) (dl : BitVec 8) (key : List Byte) (salt pers : Option (List Byte)) (uf : Bool) :
    e ∈ configErrors dl key salt pers uf ↔ ConfigErrorApplies e dl key salt pers uf := by
  cases e <;> cases salt <;> cases pers <;> simp [configErrors, ConfigErrorApplies]

/-- Each error is listed at most once: the list is a part of the five in their order. -/
theorem configErrors_sublist (dl : BitVec 8) (key : List Byte) (salt pers : Option (List Byte)) (uf : Bool) :
    (configErrors dl key salt pers uf).Sublist
      ([.invalidDigestLength] ++ [.invalidKeyLength] ++ [.invalidSaltLength] ++ [.invalidPersonalizationLength] ++
        [.unexpectedConfigField]) := by
  unfold configErrors
  refine .append (.append (.append (.append ?_ ?_) ?_) ?_) ?_ <;> repeat' split
  all_goals simp

theorem configErrors_nodup (dl : BitVec 8) (key : List Byte) (salt pers : Option (List Byte)) (uf : Bool) :
    (configErrors dl key salt pers uf).Nodup :=
  (configErrors_sublist dl key salt pers uf).nodup (by decide)

/-- Settles O14: the error that is picked is one of the list, and raising it only responds. -/
theorem failedConfigChangesNoRegister : Obligations.FailedConfigChangesNoRegister := by
  intro s dl key salt pers uf hillegal
  obtain ⟨hnone, -⟩ | ⟨first, others, herrors, hrun⟩ := execConfig_cases dl key salt pers uf s
  · exact absurd ((configErrors_eq_nil_iff ..).1 hnone) hillegal
  · obtain ⟨n, hn⟩ := raiseOneOf_eq first others s
    refine ⟨_, n, ?_, hrun.trans hn⟩
    rw [← mem_configErrors_iff, herrors]
    exact pickError_mem first others _

/-- When one error applies it is the whole list. -/
theorem configErrors_eq_singleton {e : Status} {dl : BitVec 8} {key : List Byte} {salt pers : Option (List Byte)} {uf : Bool}
    (happlies : ConfigErrorApplies e dl key salt pers uf) (honly : ∀ e', ConfigErrorApplies e' dl key salt pers uf → e' = e) :
    configErrors dl key salt pers uf = [e] := by
  refine List.perm_singleton.1 ((List.perm_ext_iff_of_nodup (configErrors_nodup ..) (List.nodup_singleton e)).2 fun e' => ?_)
  rw [mem_configErrors_iff, List.mem_singleton]
  exact ⟨honly e', fun h => h ▸ happlies⟩

/-- Settles O15: the error is the whole list, so it is raised as it is, and it is one of the five. -/
theorem singleConfigErrorIsReported : Obligations.SingleConfigErrorIsReported := by
  intro s dl key salt pers uf e happlies honly
  have hrun : execConfig dl key salt pers uf s = raise e s := by
    rw [execConfig, configErrors_eq_singleton happlies honly]
    exact raiseOneOf_single e s
  refine hrun.trans ((raise_eq e s).trans ?_)
  cases e with
  | invalidDigestLength | invalidKeyLength | invalidSaltLength | invalidPersonalizationLength | unexpectedConfigField => rfl
  | ok | invalidInputType | updateAfterFinalize | illegalCommand | noInstance => exact happlies.elim

/-! ### The initial chaining value -/

theorem le32_eq_ofNat (b0 b1 b2 b3 : Byte) : le32 b0 b1 b2 b3 = BitVec.ofNat 32 (littleEndian b0 b1 b2 b3) := by
  rw [littleEndian, ← le32_toNat, BitVec.ofNat_toNat, BitVec.setWidth_eq]

/-- Salt into words 4 and 5, as words that are 0 when there is no salt. -/
theorem xorSalt_eq (h : Vector Word 8) (salt : Option (List Byte)) :
    xorSalt h salt = (h.set 4 (h[4] ^^^ optionalWord salt 0)).set 5 (h[5] ^^^ optionalWord salt 1) := by
  cases salt with
  | none => simp [xorSalt, optionalWord]
  | some salt => simp [xorSalt, optionalWord, le32At, le32_eq_ofNat]

/-- Personalization into words 6 and 7, as words that are 0 when there is none. -/
theorem xorPers_eq (h : Vector Word 8) (pers : Option (List Byte)) :
    xorPers h pers = (h.set 6 (h[6] ^^^ optionalWord pers 0)).set 7 (h[7] ^^^ optionalWord pers 1) := by
  cases pers with
  | none => simp [xorPers, optionalWord]
  | some pers => simp [xorPers, optionalWord, le32At, le32_eq_ofNat]

theorem initChain_eq (dl : BitVec 8) (key : List Byte) (salt pers : Option (List Byte)) :
    initChain dl key salt pers = #v[iv[0] ^^^ parameterWord dl key, iv[1], iv[2], iv[3],
      iv[4] ^^^ optionalWord salt 0, iv[5] ^^^ optionalWord salt 1,
      iv[6] ^^^ optionalWord pers 0, iv[7] ^^^ optionalWord pers 1] := by
  rw [initChain, xorPers_eq, xorSalt_eq]
  rfl

theorem parameterWord_eq_ofNat (dl : BitVec 8) {key : List Byte} (hkey : key.length < 2 ^ 8) :
    parameterWord dl key = BitVec.ofNat 32 (dl.toNat + 2 ^ 8 * key.length + 2 ^ 16 + 2 ^ 24) := by
  rw [parameterWord, le32_eq_ofNat, littleEndian, BitVec.toNat_ofNat, Nat.mod_eq_of_lt hkey]
  rfl

/-- DL is the low byte of the parameter word. -/
theorem byteOf_parameterWord_zero (dl : BitVec 8) (key : List Byte) : byteOf (parameterWord dl key) 0 = dl :=
  (List.cons.inj (bytesLE_le32 dl _ 1 1)).1

/-! ### A successful CONFIG -/

/-- The key block: the key, then zeros (40_config.md R111). -/
theorem blockOf_eq_ofFn (key : List Byte) :
    blockOf key = Vector.ofFn fun i : Fin 64 => if h : i.val < key.length then key[i.val] else 0 := by
  apply Vector.ext
  intro i hi
  rw [blockOf_getElem key i hi, Vector.getElem_ofFn, List.getD_eq_getElem?_getD]
  split
  next h => simp [h]
  next h => simp [h]

/-- Settles O13: the new instance with the initial chaining value written out. -/
theorem configStartsAnInstance : Obligations.ConfigStartsAnInstance := by
  intro s dl key salt pers uf legal
  refine (execConfig_of_legal legal s).trans ?_
  obtain ⟨-, -, hkey, -⟩ := legal
  rw [State.startInstance, blockOf_eq_ofFn, initChain_eq, parameterWord_eq_ofNat dl (by omega)]
  rfl

theorem config_chain_zero {s t : State} {dl : BitVec 8} {key : List Byte} {salt pers : Option (List Byte)} {uf : Bool}
    (legal : ConfigLegal dl key salt pers uf) (h : exec (.config dl key salt pers uf) s = .next t) :
    t.chain[0] = iv[0] ^^^ parameterWord dl key := by
  obtain rfl := Host.Outcome.next.inj ((execConfig_of_legal legal s).symm.trans h)
  simp [initChain_eq]

/-- Settles O18: CHAIN[0] gives back the parameter word, and its low byte is DL. -/
theorem digestLengthsGiveDifferentChains : Obligations.DigestLengthsGiveDifferentChains := by
  intro s t u dl dl' key key' salt salt' pers pers' uf uf' legal legal' hne ht hu heq
  rw [config_chain_zero legal ht, config_chain_zero legal' hu, BitVec.xor_right_inj] at heq
  apply hne
  rw [← byteOf_parameterWord_zero dl key, heq, byteOf_parameterWord_zero]

/-! ### Zero salts and personalizations -/

theorem optionalWord_zeros (n k : Nat) : optionalWord (some (List.replicate n 0)) k = optionalWord none k := by
  simp [optionalWord, littleEndian]

/-- CONFIG sees the salt and the personalization through its errors and the words they give. -/
theorem exec_config_congr {dl : BitVec 8} {key : List Byte} {salt salt' pers pers' : Option (List Byte)} {uf : Bool}
    (herrors : configErrors dl key salt pers uf = configErrors dl key salt' pers' uf)
    (hsalt : ∀ k, optionalWord salt k = optionalWord salt' k) (hpers : ∀ k, optionalWord pers k = optionalWord pers' k)
    (s : State) : exec (.config dl key salt pers uf) s = exec (.config dl key salt' pers' uf) s := by
  have hchain : initChain dl key salt pers = initChain dl key salt' pers' := by simp only [initChain_eq, hsalt, hpers]
  simp only [exec, execConfig, herrors, State.startInstance, hchain]

/-- Settles O17: eight zero bytes have a legal length and give two zero words. -/
theorem zeroSaltIsAsAbsent : Obligations.ZeroSaltIsAsAbsent := by
  intro s dl key salt pers uf
  constructor
  · exact exec_config_congr (by rfl) (optionalWord_zeros 8) (fun _ => rfl) s
  · exact exec_config_congr (by rfl) (fun _ => rfl) (optionalWord_zeros 8) s

end Sys2Proof.Machine
end

section
/-!
PROOFS. The mixing function and the mix (41_compression.md R135, R136). G is two half mixes, each undone step by step, so it is one to one;
a mix reads and writes its own four positions alone, so mixes on disjoint positions commute.
-/

namespace Sys2Proof.Machine

/-! ### G is one to one -/

theorem rotr_rotr_of_add_eq {m n : Nat} (x : Word) (hm : m < 32) (hn : n < 32) (hmn : m + n = 32) : rotr (rotr x m) n = x := by
  ext i hi
  have hsrc : ((i + n) % 32 + m) % 32 = i := by omega
  rw [← BitVec.getLsbD_eq_getElem, getLsbD_rotr _ hn hi, getLsbD_rotr _ hm (Nat.mod_lt _ (by decide)), hsrc,
    BitVec.getLsbD_eq_getElem]

/-- The four steps that R135 does twice, with one message word and two rotations. -/
def halfMix (m n : Nat) (x : Word) : Word × Word × Word × Word → Word × Word × Word × Word
  | (a, b, c, d) =>
    let a := a + b + x
    let d := rotr (d ^^^ a) m
    let c := c + d
    (a, rotr (b ^^^ c) n, c, d)

theorem mixG_eq_halfMix (a b c d x y : Word) : mixG a b c d x y = halfMix 8 7 y (halfMix 16 12 x (a, b, c, d)) := rfl

/-- The steps of `halfMix` undone, the last one first. -/
def undoHalfMix (m n : Nat) (x : Word) : Word × Word × Word × Word → Word × Word × Word × Word
  | (a, b, c, d) =>
    let b := rotr b (32 - n) ^^^ c
    (a - x - b, b, c - d, rotr d (32 - m) ^^^ a)

theorem undoHalfMix_halfMix {m n : Nat} (hm : 0 < m ∧ m < 32) (hn : 0 < n ∧ n < 32) (x : Word) :
    Function.LeftInverse (undoHalfMix m n x) (halfMix m n x) := by
  rintro ⟨a, b, c, d⟩
  have hrm (w : Word) : rotr (rotr w m) (32 - m) = w := rotr_rotr_of_add_eq w hm.2 (by omega) (by omega)
  have hrn (w : Word) : rotr (rotr w n) (32 - n) = w := rotr_rotr_of_add_eq w hn.2 (by omega) (by omega)
  simp [halfMix, undoHalfMix, hrm, hrn]

theorem halfMix_undoHalfMix {m n : Nat} (hm : 0 < m ∧ m < 32) (hn : 0 < n ∧ n < 32) (x : Word) :
    Function.RightInverse (undoHalfMix m n x) (halfMix m n x) := by
  rintro ⟨a, b, c, d⟩
  have hrm (w : Word) : rotr (rotr w (32 - m)) m = w := rotr_rotr_of_add_eq w (by omega) hm.2 (by omega)
  have hrn (w : Word) : rotr (rotr w (32 - n)) n = w := rotr_rotr_of_add_eq w (by omega) hn.2 (by omega)
  simp [halfMix, undoHalfMix, hrm, hrn]

theorem halfMix_bijective {m n : Nat} (hm : 0 < m ∧ m < 32) (hn : 0 < n ∧ n < 32) (x : Word) : (halfMix m n x).Bijective :=
  Function.bijective_iff_has_inverse.2 ⟨undoHalfMix m n x, undoHalfMix_halfMix hm hn x, halfMix_undoHalfMix hm hn x⟩

/-- Settles O21: G is a half mix after a half mix. -/
theorem mixIsOneToOne : Obligations.MixIsOneToOne := by
  intro x y
  simp only [mixG_eq_halfMix]
  exact (halfMix_bijective (by decide) (by decide) y).comp (halfMix_bijective (by decide) (by decide) x)

/-! ### Mixes on disjoint words -/

theorem getElem_mixAt_of_notMem {a b c d i : Fin 16} (h : i ∉ [a, b, c, d]) (v : Vector Word 16) (x y : Word) :
    (mixAt v a b c d x y)[i] = v[i] := by
  simp only [List.mem_cons, List.not_mem_nil, or_false, not_or, ← ne_eq] at h
  obtain ⟨ha, hb, hc, hd⟩ := h
  simp [mixAt, Vector.getElem_set_ne, Fin.val_ne_of_ne, ha.symm, hb.symm, hc.symm, hd.symm]

/-- A mix neither reads nor writes a word at another position. -/
theorem mixAt_set_of_notMem {a b c d i : Fin 16} (h : i ∉ [a, b, c, d]) (v : Vector Word 16) (w x y : Word) :
    mixAt (v.set i w) a b c d x y = (mixAt v a b c d x y).set i w := by
  simp only [List.mem_cons, List.not_mem_nil, or_false, not_or, ← ne_eq] at h
  obtain ⟨ha, hb, hc, hd⟩ := h
  have hread {j : Fin 16} (hj : i ≠ j) : (v.set i w)[j] = v[j] := Vector.getElem_set_ne _ _ (Fin.val_ne_of_ne hj)
  simp only [mixAt, hread ha, hread hb, hread hc, hread hd]
  rw [Vector.set_comm _ _ (Fin.val_ne_of_ne ha), Vector.set_comm _ _ (Fin.val_ne_of_ne hb),
    Vector.set_comm _ _ (Fin.val_ne_of_ne hc), Vector.set_comm _ _ (Fin.val_ne_of_ne hd)]

/-- The four writes of the first mix are moved out of the second, which leaves the words that the first one reads. -/
theorem mixAt_comm_of_disjoint {a b c d a' b' c' d' : Fin 16} (h : [a, b, c, d].Disjoint [a', b', c', d'])
    (v : Vector Word 16) (x y x' y' : Word) :
    mixAt (mixAt v a b c d x y) a' b' c' d' x' y' = mixAt (mixAt v a' b' c' d' x' y') a b c d x y := by
  have ha : a ∉ [a', b', c', d'] := h (by simp)
  have hb : b ∉ [a', b', c', d'] := h (by simp)
  have hc : c ∉ [a', b', c', d'] := h (by simp)
  have hd : d ∉ [a', b', c', d'] := h (by simp)
  conv_lhs => arg 1; unfold mixAt
  conv_rhs => rw [mixAt]
  simp only [mixAt_set_of_notMem, getElem_mixAt_of_notMem, ha, hb, hc, hd, not_false_eq_true]

/-- Settles O22: positions that all differ are disjoint. -/
theorem mixesOnDisjointWordsCommute : Obligations.MixesOnDisjointWordsCommute := by
  intro v a b c d a' b' c' d' x y x' y' hnodup
  exact mixAt_comm_of_disjoint (List.disjoint_of_nodup_append (l₁ := [a, b, c, d]) hnodup) v x y x' y'

/-! ### The table and the worked examples -/

/-- Settles O23: the ten rows are searched for each index. -/
theorem sigmaRowsArePermutations : Obligations.SigmaRowsArePermutations := by
  unfold Obligations.SigmaRowsArePermutations
  decide

/-- Settles O24: both compressions are evaluated. -/
theorem compressWorkedExample : Obligations.CompressWorkedExample := by
  constructor
  · decide +kernel
  · decide +kernel

end Sys2Proof.Machine
end

section
/-!
PROOFS. What an absorbing UPDATE does, by the byte string it acts on: the bytes in BUF followed by the payload (42_update.md R163 to R168).
`AbsorbsTo` relates the state before, the payload and the state after. It composes along concatenation and fixes the hash state.
-/

namespace Sys2Proof.Machine

/-! ### Every block but the last, of a byte string -/

/-- `chainOfBlocks` with fuel for the whole byte string. -/
def compressAllButLast (h : Vector Word 8) (t : Nat) (bytes : List Byte) : Vector Word 8 × Nat × List Byte :=
  chainOfBlocks bytes.length h t bytes

theorem compressAllButLast_of_le {bytes : List Byte} (hlen : bytes.length ≤ 64) (h : Vector Word 8) (t : Nat) :
    compressAllButLast h t bytes = (h, t, bytes) :=
  chainOfBlocks_of_le _ _ _ _ hlen

theorem chainOfBlocks_eq_compressAllButLast {fuel : Nat} {bytes : List Byte} (hfuel : bytes.length ≤ 64 * (fuel + 1))
    (h : Vector Word 8) (t : Nat) : chainOfBlocks fuel h t bytes = compressAllButLast h t bytes :=
  chainOfBlocks_fuel _ _ _ _ _ hfuel (by omega)

theorem compressAllButLast_of_gt {bytes : List Byte} (hlen : 64 < bytes.length) (h : Vector Word 8) (t : Nat) :
    compressAllButLast h t bytes =
      compressAllButLast (compress h (blockOf bytes) (countLow (t + 64)) (countHigh (t + 64)) noFlag noFlag) (t + 64)
        (bytes.drop 64) := by
  rw [← chainOfBlocks_eq_compressAllButLast (fuel := bytes.length + 1) (by omega), chainOfBlocks, if_pos hlen]
  exact chainOfBlocks_eq_compressAllButLast (by rw [List.length_drop]; omega) _ _

/-- The count and the bytes held back, by the length of the byte string. -/
theorem compressAllButLast_snd (h : Vector Word 8) (t : Nat) (bytes : List Byte) :
    (compressAllButLast h t bytes).2 = (t + 64 * ((bytes.length - 1) / 64), bytes.drop (64 * ((bytes.length - 1) / 64))) := by
  induction hn : bytes.length using Nat.strong_induction_on generalizing h t bytes with
  | _ n ih =>
    rcases Nat.lt_or_ge 64 bytes.length with hlong | hshort
    · have hblocks : (n - 1) / 64 = (n - 64 - 1) / 64 + 1 := by omega
      rw [compressAllButLast_of_gt hlong, ih (n - 64) (by omega) _ _ _ (by rw [List.length_drop, hn]), List.drop_drop, hblocks]
      simp only [Prod.mk.injEq]
      constructor
      · omega
      · congr 1; omega
    · have hblocks : (n - 1) / 64 = 0 := by omega
      rw [compressAllButLast_of_le hshort, hblocks]
      rfl

theorem blockOf_append {a : List Byte} (hlen : 64 ≤ a.length) (b : List Byte) : blockOf (a ++ b) = blockOf a := by
  apply Vector.ext
  intro i hi
  rw [blockOf_getElem, blockOf_getElem, List.getD_append _ _ _ _ (by omega)]

/-- What is held back of a byte string goes before what follows it (42_update.md R169). -/
theorem compressAllButLast_append (h : Vector Word 8) (t : Nat) (a b : List Byte) {h' : Vector Word 8} {t' : Nat}
    {held : List Byte} (ha : compressAllButLast h t a = (h', t', held)) :
    compressAllButLast h t (a ++ b) = compressAllButLast h' t' (held ++ b) := by
  induction hn : a.length using Nat.strong_induction_on generalizing h t a with
  | _ n ih =>
    rcases Nat.lt_or_ge 64 a.length with hlong | hshort
    · rw [compressAllButLast_of_gt hlong] at ha
      rw [compressAllButLast_of_gt (by rw [List.length_append]; omega), blockOf_append hlong.le,
        List.drop_append_of_le_length hlong.le]
      exact ih (n - 64) (by omega) _ _ _ ha (by rw [List.length_drop, hn])
    · rw [compressAllButLast_of_le hshort] at ha
      obtain ⟨rfl, rfl, rfl⟩ := ha
      rfl

/-- The number of blocks that R163 and R164 compress is that of the blocks before the last of BUF and payload. -/
theorem blocksCompressed_eq {blen : Nat} (hblen : blen ≤ 64) (len : Nat) : blocksCompressed blen len = (blen + len - 1) / 64 := by
  unfold blocksCompressed
  split <;> omega

/-! ### Absorbing -/

theorem State.blen_le (s : State) : s.blen.val ≤ 64 := Nat.le_of_lt_succ s.blen.isLt

theorem buffered_eq_nil {s : State} (h : s.blen.val = 0) : s.buffered = [] :=
  List.eq_nil_of_length_eq_zero ((buffered_length s).trans h)

/-- A block of BUF and payload takes the payload's first bytes that top BUF up. -/
theorem buffered_append_drop (s : State) (data : List Byte) :
    (s.buffered ++ data).drop 64 = data.drop (64 - s.blen.val) := by
  rw [List.drop_append, buffered_length, List.drop_of_length_le (by rw [buffered_length]; exact s.blen_le), List.nil_append]

/-- The state `t` is one that absorbing `data` in `s` leaves: CHAIN, T and the valid bytes of BUF are those of the buffered bytes
followed by `data`, and everything but the registers of the hash state, the responses and the model's counter is as it was. -/
structure AbsorbsTo (s : State) (data : List Byte) (t : State) : Prop where
  hash : compressAllButLast s.chain s.counter (s.buffered ++ data) = (t.chain, t.counter, t.buffered)
  frame : t = { s with
    chain := t.chain, buf := t.buf, blen := t.blen, t0 := t.t0, t1 := t.t1, out := t.out, freeIx := t.freeIx }

theorem AbsorbsTo.emit {s t : State} {data : List Byte} (h : AbsorbsTo s data t) (bytes : List Byte) :
    AbsorbsTo s data (t.emit bytes) :=
  ⟨h.hash, congrArg (State.emit · bytes) h.frame⟩

/-- Absorbing nothing leaves at most the 64 bytes of BUF, so no block is compressed. -/
theorem AbsorbsTo.refl (s : State) : AbsorbsTo s [] s :=
  ⟨by rw [List.append_nil, compressAllButLast_of_le (by rw [buffered_length]; exact s.blen_le)], rfl⟩

theorem AbsorbsTo.trans {s t u : State} {a b : List Byte} (hst : AbsorbsTo s a t) (htu : AbsorbsTo t b u) :
    AbsorbsTo s (a ++ b) u where
  hash := by rw [← List.append_assoc, compressAllButLast_append _ _ _ b hst.hash, htu.hash]
  frame := by rw [htu.frame, hst.frame]

theorem AbsorbsTo.phase_eq {s t : State} {data : List Byte} (h : AbsorbsTo s data t) : t.phase = s.phase := by rw [h.frame]

/-- T counts the compressed blocks (42_update.md R175). -/
theorem AbsorbsTo.counter_eq {s t : State} {data : List Byte} (h : AbsorbsTo s data t) :
    t.counter = s.counter + 64 * blocksCompressed s.blen.val data.length := by
  have hcount := congrArg (·.2.1) h.hash
  rwa [compressAllButLast_snd, List.length_append, buffered_length, ← blocksCompressed_eq s.blen_le, eq_comm] at hcount

/-- BLEN counts the bytes held back. -/
theorem AbsorbsTo.blen_eq {s t : State} {data : List Byte} (h : AbsorbsTo s data t) :
    t.blen.val = s.blen.val + data.length - 64 * blocksCompressed s.blen.val data.length := by
  have hheld := congrArg (·.2.2.length) h.hash
  rwa [compressAllButLast_snd, List.length_drop, List.length_append, buffered_length, buffered_length,
    ← blocksCompressed_eq s.blen_le, eq_comm] at hheld

/-- An empty payload never overflows the counter. -/
theorem counter_add_no_blocks_lt (s : State) : s.counter + 64 * blocksCompressed s.blen.val 0 < 2 ^ 64 :=
  lt_of_eq_of_lt (AbsorbsTo.refl s).counter_eq.symm (counter_lt s)

theorem counterValue_inj {t0 t1 u0 u1 : Word} (h : counterValue t0 t1 = counterValue u0 u1) : t0 = u0 ∧ t1 = u1 := by
  have := t0.isLt
  have := u0.isLt
  unfold counterValue at h
  constructor <;> apply BitVec.eq_of_toNat_eq <;> omega

/-- The state before and the payload fix all of the state after that is specified. -/
theorem AbsorbsTo.unique {s t u : State} {data : List Byte} (ht : AbsorbsTo s data t) (hu : AbsorbsTo s data u) :
    SameHash t u ∧ t.phase = u.phase ∧ t.result = u.result := by
  have hhash := ht.hash.symm.trans hu.hash
  simp only [Prod.mk.injEq] at hhash
  obtain ⟨hchain, hcounter, hbuffered⟩ := hhash
  obtain ⟨ht0, ht1⟩ := counterValue_inj hcounter
  have hblen : t.blen = u.blen := Fin.ext (by rw [ht.blen_eq, hu.blen_eq])
  refine ⟨⟨hchain, hblen, hbuffered, ht0, ht1, ?_, ?_, ?_⟩, ?_, ?_⟩ <;> rw [ht.frame, hu.frame]

/-- A top-up compresses the first 64 bytes of BUF and payload (42_update.md R163, R168). -/
theorem topUp_of_lt {s : State} {data : List Byte} (hlen : 64 - s.blen.val ≤ data.length) (h : s.counter + 64 < 2 ^ 64) :
    ∃ t, topUp (data.take (64 - s.blen.val)) s = .next t ∧ t.counter = s.counter + 64 ∧ t.chain =
      compress s.chain (blockOf (s.buffered ++ data)) (countLow (s.counter + 64)) (countHigh (s.counter + 64)) noFlag noFlag := by
  obtain ⟨u, hu, hcounter, hchain⟩ := compressBlock_of_lt (b := blockOf (s.buffered ++ data)) (f0 := noFlag) (f1 := noFlag) h
  refine ⟨{ u with buf := blockOf (s.buffered ++ data), blen := 0 }, ?_, hcounter, congrArg State.chain hchain⟩
  simp only [topUp, bufWrite_eq_blockOf s data hlen, hu, andThen_of_next]

theorem topUp_of_ge {s : State} (data : List Byte) (h : 2 ^ 64 ≤ s.counter + 64) :
    topUp data s = .fault .counterOverflow := by
  simp only [topUp, compressBlock_of_ge h, andThen_of_fault]

/-- A payload that fits in BUF is appended there. -/
theorem holdBack_absorbsTo {s : State} {data : List Byte} (hfits : s.blen.val + data.length ≤ 64) :
    AbsorbsTo s data (holdBack data s) where
  hash := by
    rw [compressAllButLast_of_le (by rw [List.length_append, buffered_length]; exact hfits), holdBack_chain, holdBack_counter,
      (holdBack_buffered data s hfits).1]
  frame := by simp only [holdBack]

/-- Absorbing completes when the counter has room for the blocks that are compressed. -/
theorem absorb_of_lt {s : State} {data : List Byte}
    (h : s.counter + 64 * blocksCompressed s.blen.val data.length < 2 ^ 64) :
    ∃ t, absorb data s = .next t ∧ AbsorbsTo s data t := by
  have hblen := s.blen_le
  rw [blocksCompressed_eq hblen] at h
  rw [absorb]
  split
  next hlong =>
    obtain ⟨u, hu, hcounter, hchain⟩ := topUp_of_lt hlong.le (by omega)
    obtain ⟨r, hr, hblocks, -, hrest⟩ :=
      drainBlocks_of_lt data.length (data.drop (64 - s.blen.val)) u (by rw [hcounter, List.length_drop]; omega)
        (by rw [List.length_drop]; omega)
    have hempty : r.1.blen.val = 0 := by rw [drainBlocks_next hr, (topUp_next hu).1]; rfl
    have hfits : r.1.blen.val + r.2.length ≤ 64 := by rw [hempty, hrest, List.length_drop, List.length_drop]; omega
    refine ⟨holdBack r.2 r.1, by rw [hu, andThen_of_next, hr, andThen_of_next], ?_, ?_⟩
    · calc compressAllButLast s.chain s.counter (s.buffered ++ data)
        _ = compressAllButLast u.chain u.counter (data.drop (64 - s.blen.val)) := by
          rw [compressAllButLast_of_gt (by rw [List.length_append, buffered_length]; omega), ← hchain, ← hcounter,
            buffered_append_drop]
        _ = (r.1.chain, r.1.counter, r.2) := by
          rw [← hblocks, chainOfBlocks_eq_compressAllButLast (by rw [List.length_drop]; omega)]
        _ = ((holdBack r.2 r.1).chain, (holdBack r.2 r.1).counter, (holdBack r.2 r.1).buffered) := by
          rw [holdBack_chain, holdBack_counter, (holdBack_buffered _ _ hfits).1, buffered_eq_nil hempty, List.nil_append]
    · simp only [holdBack]
      rw [drainBlocks_next hr, (topUp_next hu).1]
  next hshort => exact ⟨_, rfl, holdBack_absorbsTo (by omega)⟩

/-- Absorbing a payload that is not empty overflows the counter when it has no room for the blocks. -/
theorem absorb_of_ge {s : State} {data : List Byte}
    (h : 2 ^ 64 ≤ s.counter + 64 * blocksCompressed s.blen.val data.length) : absorb data s = .fault .counterOverflow := by
  have hroom := counter_lt s
  have hblen := s.blen_le
  rw [blocksCompressed_eq hblen] at h
  have hlong : data.length > 64 - s.blen.val := by omega
  simp only [absorb, if_pos hlong]
  rcases Nat.lt_or_ge (s.counter + 64) (2 ^ 64) with hlt | hge
  · obtain ⟨u, hu, hcounter, -⟩ := topUp_of_lt hlong.le hlt
    rw [hu, andThen_of_next, drainBlocks_of_ge, andThen_of_fault] <;> simp only [hcounter, List.length_drop] <;> omega
  · rw [topUp_of_ge _ hge, andThen_of_fault]

end Sys2Proof.Machine
end

section
/-!
PROOFS. UPDATE while absorbing (42_update.md R160 to R171). The counter decides whether it completes, and then it absorbs its payload; so
the streaming equivalence (R169) is an induction over the chunks.
-/

namespace Sys2Proof.Machine

/-! ### The command -/

theorem exec_update_nil {s : State} (hphase : s.phase = .absorbing) :
    exec (.update .byteSequence []) s = .next (s.emit [statusCode .ok]) := by
  simp [exec, execUpdate, hphase, updateErrors]

theorem exec_update_of_ne_nil {s : State} (hphase : s.phase = .absorbing) {data : List Byte} (hdata : data ≠ []) :
    exec (.update .byteSequence data) s = andThen (absorb data s) fun t => .next (t.emit [statusCode .ok]) := by
  simp [exec, execUpdate, hphase, updateErrors, hdata]

/-- An UPDATE completes when the counter has room for the blocks that are compressed (42_update.md R167). -/
theorem exec_update_of_lt {s : State} (hphase : s.phase = .absorbing) {data : List Byte}
    (h : s.counter + 64 * blocksCompressed s.blen.val data.length < 2 ^ 64) :
    ∃ t, exec (.update .byteSequence data) s = .next t ∧ AbsorbsTo s data t ∧ t.out = s.out ++ [statusCode .ok] := by
  rcases eq_or_ne data [] with rfl | hdata
  · exact ⟨_, exec_update_nil hphase, (AbsorbsTo.refl s).emit _, rfl⟩
  · obtain ⟨t, ht, habs⟩ := absorb_of_lt h
    refine ⟨t.emit [statusCode .ok], by rw [exec_update_of_ne_nil hphase hdata, ht, andThen_of_next], habs.emit _, ?_⟩
    rw [State.emit_out, (absorb_streams ht).2.2.2]

/-- An UPDATE faults when the counter has no room for them. -/
theorem exec_update_of_ge {s : State} (hphase : s.phase = .absorbing) {data : List Byte}
    (h : 2 ^ 64 ≤ s.counter + 64 * blocksCompressed s.blen.val data.length) :
    exec (.update .byteSequence data) s = .fault .counterOverflow := by
  have hdata : data ≠ [] := by
    rintro rfl
    exact absurd (counter_add_no_blocks_lt s) h.not_gt
  rw [exec_update_of_ne_nil hphase hdata, absorb_of_ge h, andThen_of_fault]

/-- An UPDATE that completes has absorbed its payload. -/
theorem exec_update_next {s t : State} (hphase : s.phase = .absorbing) {data : List Byte}
    (h : exec (.update .byteSequence data) s = .next t) : AbsorbsTo s data t := by
  rcases Nat.lt_or_ge (s.counter + 64 * blocksCompressed s.blen.val data.length) (2 ^ 64) with hlt | hge
  · obtain ⟨u, hu, habs, -⟩ := exec_update_of_lt hphase hlt
    obtain rfl := Host.Outcome.next.inj (h.symm.trans hu)
    exact habs
  · rw [exec_update_of_ge hphase hge] at h
    cases h

/-! ### Chunks -/

/-- A chunk and what follows it compress as many blocks as the two together (42_update.md R169, R170). -/
theorem AbsorbsTo.counter_add_blocks {s t : State} {data : List Byte} (h : AbsorbsTo s data t) (len : Nat) :
    t.counter + 64 * blocksCompressed t.blen.val len = s.counter + 64 * blocksCompressed s.blen.val (data.length + len) := by
  have hcounter := h.counter_eq
  have hblen := h.blen_eq
  rw [blocksCompressed_eq s.blen_le] at hcounter hblen ⊢
  rw [blocksCompressed_eq t.blen_le]
  omega

theorem execAll_updates_cons (chunk : List Byte) (chunks : List (List Byte)) (s : State) :
    execAll (updates (chunk :: chunks)) s = andThen (exec (.update .byteSequence chunk) s) (execAll (updates chunks)) := rfl

/-- The chunks complete when the counter has room for the blocks of all of them, and absorb their concatenation. -/
theorem execAll_updates_of_lt {s : State} (hphase : s.phase = .absorbing) {chunks : List (List Byte)}
    (h : s.counter + 64 * blocksCompressed s.blen.val chunks.flatten.length < 2 ^ 64) :
    ∃ t, execAll (updates chunks) s = .next t ∧ AbsorbsTo s chunks.flatten t := by
  induction chunks generalizing s with
  | nil => exact ⟨s, rfl, AbsorbsTo.refl s⟩
  | cons chunk chunks ih =>
    rw [List.flatten_cons, List.length_append] at h
    have hchunk : s.counter + 64 * blocksCompressed s.blen.val chunk.length < 2 ^ 64 := by
      rw [blocksCompressed_eq s.blen_le] at h ⊢
      omega
    obtain ⟨t, ht, hst, -⟩ := exec_update_of_lt hphase hchunk
    obtain ⟨u, hu, htu⟩ := ih (hst.phase_eq.trans hphase) (by rwa [hst.counter_add_blocks])
    exact ⟨u, by rw [execAll_updates_cons, ht, andThen_of_next, hu], hst.trans htu⟩

/-- Some chunk overflows the counter when it has no room for them. -/
theorem execAll_updates_of_ge {s : State} (hphase : s.phase = .absorbing) {chunks : List (List Byte)}
    (h : 2 ^ 64 ≤ s.counter + 64 * blocksCompressed s.blen.val chunks.flatten.length) :
    execAll (updates chunks) s = .fault .counterOverflow := by
  induction chunks generalizing s with
  | nil => exact absurd (counter_add_no_blocks_lt s) h.not_gt
  | cons chunk chunks ih =>
    rw [List.flatten_cons, List.length_append] at h
    rw [execAll_updates_cons]
    rcases Nat.lt_or_ge (s.counter + 64 * blocksCompressed s.blen.val chunk.length) (2 ^ 64) with hlt | hge
    · obtain ⟨t, ht, hst, -⟩ := exec_update_of_lt hphase hlt
      rw [ht, andThen_of_next]
      exact ih (hst.phase_eq.trans hphase) (by rwa [hst.counter_add_blocks])
    · rw [exec_update_of_ge hphase hge, andThen_of_fault]

/-- Settles O31: the counter has room for the blocks of all the bytes, and both runs absorb them, or it has none, and both fault. -/
theorem streamingEquivalence : Obligations.StreamingEquivalence := by
  intro s chunks hphase
  rcases Nat.lt_or_ge (s.counter + 64 * blocksCompressed s.blen.val chunks.flatten.length) (2 ^ 64) with hlt | hge
  · obtain ⟨t, ht, hst⟩ := execAll_updates_of_lt hphase hlt
    obtain ⟨u, hu, hsu, -⟩ := exec_update_of_lt hphase hlt
    rw [ht, hu]
    constructor
    · rintro _ ⟨⟩
      exact ⟨u, rfl, hst.unique hsu⟩
    · rintro _ ⟨⟩
      exact ⟨t, rfl, hst.unique hsu⟩
  · rw [execAll_updates_of_ge hphase hge, exec_update_of_ge hphase hge]
    exact ⟨nofun, nofun⟩

/-! ### One UPDATE -/

/-- Settles O28: the counter decides which, and BLEN is what the compressed blocks leave of BUF and payload. -/
theorem updateCompletesOrOverflows : Obligations.UpdateCompletesOrOverflows := by
  intro s data hphase hdata
  refine ⟨fun hlt => ?_, exec_update_of_ge hphase⟩
  obtain ⟨t, ht, habs, hout⟩ := exec_update_of_lt hphase hlt
  have hpos : 0 < data.length := List.length_pos_iff.2 hdata
  have hcounter := habs.counter_eq
  have hblen := habs.blen_eq
  refine ⟨t, ht, hcounter, ?_, ?_, t.blen_le, ?_⟩
  · rw [blocksCompressed_eq s.blen_le] at hcounter hblen
    omega
  · rw [blocksCompressed_eq s.blen_le] at hblen
    omega
  · refine ⟨?_, ?_, habs.phase_eq.trans hphase, ?_, ?_, ?_, ?_, ?_, hout⟩ <;> rw [habs.frame]

/-- Settles O29: this is the first part of `AbsorbsTo`. -/
theorem updateHoldsBackTheLastBlock : Obligations.UpdateHoldsBackTheLastBlock :=
  fun _ _ _ hphase h => (exec_update_next hphase h).hash

/-- Settles O30: by the invariant T is a multiple of 64, and 0 when BUF is empty, so the blocks before the last of BUF and payload are
counted from T on. -/
theorem compressionsPerUpdate : Obligations.CompressionsPerUpdate := by
  intro s t data hinv hphase hdata h
  obtain ⟨-, -, hmod, hzero, -⟩ := hinv.absorbing hphase
  have hpos : 0 < data.length := List.length_pos_iff.2 hdata
  rw [(exec_update_next hphase h).counter_eq, blocksCompressed_eq s.blen_le]
  omega

/-- A byte of BUF before BLEN, by the valid bytes. -/
theorem buf_getElem_eq (s : State) (i : Fin 64) (h : i.val < s.blen.val) : s.buf[i] = s.buffered.getD i.val 0 :=
  (buffered_getD s i.val h).symm

/-- Settles O27: the payload is appended to the valid bytes of BUF. -/
theorem updateThatFitsIsStored : Obligations.UpdateThatFitsIsStored := by
  intro s data hphase hpos hlen
  have hfits : s.blen.val + data.length ≤ 64 := by have := s.blen_le; omega
  obtain ⟨hbuffered, hblen⟩ := holdBack_buffered data s hfits
  have hbuf (i : Fin 64) (hi : i.val < s.blen.val + data.length) :
      (holdBack data s).buf[i] = (s.buffered ++ data).getD i.val 0 := by
    rw [← hbuffered]; exact buf_getElem_eq _ i (by omega)
  have hrun : exec (.update .byteSequence data) s = .next ((holdBack data s).emit [statusCode .ok]) := by
    rw [exec_update_of_ne_nil hphase (List.length_pos_iff.1 hpos), absorb, if_neg (by omega), andThen_of_next]
  refine ⟨_, hrun, hblen, fun i hi => ?_, fun k hk i hi => ?_, rfl⟩
  · rw [State.emit_buf, hbuf i (by omega), List.getD_append _ _ _ _ (by rwa [buffered_length]), buf_getElem_eq s i hi]
  · rw [State.emit_buf, hbuf i (by omega), List.getD_append_right _ _ _ _ (by rw [buffered_length]; omega), buffered_length, hi,
      Nat.add_sub_cancel_left, List.getD_eq_getElem _ _ hk]

/-- Settles O32: a sum below 2^64 is the counter of the state after, and a greater one overflows. -/
theorem counterAdditionCarriesOrFaults : Obligations.CounterAdditionCarriesOrFaults := by
  intro s n block f0 f1
  refine ⟨fun h => ?_, compressBlock_of_ge⟩
  obtain ⟨t, ht, hcounter, -⟩ := compressBlock_of_lt (b := block) (f0 := f0) (f1 := f1) h
  obtain ⟨hframe, hadd⟩ := compressBlock_next ht
  obtain ⟨-, -, hlow, hhigh⟩ := addCounter_some hadd
  have hchain : t.chain = compress s.chain block t.t0 t.t1 f0 f1 := congrArg State.chain hframe
  exact ⟨t, ht, hcounter, hlow, hhigh, hchain, by rw [hchain]; exact hframe⟩

end Sys2Proof.Machine
end

section
/-!
PROOFS. The preconditions of UPDATE (42_update.md R161, R162).
-/

namespace Sys2Proof.Machine

theorem exec_update_of_unconfigured {s : State} (hphase : s.phase = .unconfigured) (et : ElementType) (data : List Byte) :
    exec (.update et data) s = raise .noInstance s := by
  simp [exec, execUpdate, hphase]

theorem exec_update_of_errors {s : State} (hphase : s.phase ≠ .unconfigured) {et : ElementType} {e : Status} {others : List Status}
    (herrors : updateErrors et s.phase = e :: others) (data : List Byte) :
    exec (.update et data) s = raiseOneOf e others s := by
  simp [exec, execUpdate, hphase, herrors]

/-- Settles O25: the phase and ET fix the list of errors, of which one is raised. -/
theorem updatePreconditions : Obligations.UpdatePreconditions := by
  intro s et data
  refine ⟨fun hphase => exec_update_of_unconfigured hphase et data, fun hphase het => ?_, fun hphase het => ?_,
    fun hphase het => ?_, fun code => ?_⟩
  · have herrors : updateErrors et s.phase = [.invalidInputType] := by simp [updateErrors, hphase, het]
    exact exec_update_of_errors (by simp [hphase]) herrors data
  · have herrors : updateErrors et s.phase = [.updateAfterFinalize] := by simp [updateErrors, hphase, het]
    exact exec_update_of_errors (by simp [hphase]) herrors data
  · have herrors : updateErrors et s.phase = [.invalidInputType, .updateAfterFinalize] := by simp [updateErrors, hphase, het]
    exact exec_update_of_errors (by simp [hphase]) herrors data
  · constructor
    · rintro ⟨k, rfl⟩
      obtain hk | hk := List.mem_pair.1 (pickError_mem .invalidInputType [.updateAfterFinalize] k) <;> rw [hk]
      · exact .inl rfl
      · exact .inr rfl
    · rintro (rfl | rfl)
      · exact ⟨0, rfl⟩
      · exact ⟨1, rfl⟩

/-- Settles O26: the checks are those of O25, and past them an empty payload is answered at once. -/
theorem zeroLengthUpdateChangesNothing : Obligations.ZeroLengthUpdateChangesNothing := by
  intro s
  have checks (et : ElementType) := updatePreconditions s et []
  obtain ⟨hunconfigured, -, hfinished, -⟩ := checks .byteSequence
  exact ⟨hunconfigured, fun et => (checks et).2.1, exec_update_nil, fun hphase => hfinished hphase rfl⟩

end Sys2Proof.Machine
end

section
/-!
PROOFS. DIGEST (43_digest.md R190 to R203). `State.finalized` is the whole state that finalization leaves when the counter has room for the
bytes of BUF; the digest it caches is then that of the bytes in BUF, and the hash of a message is this after what UPDATE absorbs.
-/

namespace Sys2Proof.Machine

/-! ### Finalization -/

/-- The state after the padding, the counter, the flag, the compression and the extraction of 43_digest.md R193 to R197. -/
def State.finalized (s : State) : State :=
  let t0 := countLow (s.counter + s.blen.val)
  let t1 := countHigh (s.counter + s.blen.val)
  let padded := bufZeroFrom s.buf s.blen.val
  let chain := compress s.chain padded t0 t1 lastBlockFlag s.f1
  { s with
    buf := padded, f0 := lastBlockFlag, t0 := t0, t1 := t1, chain := chain
    result := resultOf chain s.dlen.val s.freeIx, phase := .finished, freeIx := s.freeIx + 1 }

/-- Finalization completes when the counter has room for the bytes of BUF (43_digest.md R194). -/
theorem finalize_of_lt {s : State} (h : s.counter + s.blen.val < 2 ^ 64) : finalize s = .next s.finalized := by
  simp only [finalize, compressBlock, addCounter_of_lt h, andThen_of_next]
  rfl

theorem finalize_of_ge {s : State} (h : 2 ^ 64 ≤ s.counter + s.blen.val) : finalize s = .fault .counterOverflow := by
  simp only [finalize, compressBlock, addCounter_of_ge h, andThen_of_fault]

theorem finalized_counter {s : State} (h : s.counter + s.blen.val < 2 ^ 64) :
    s.finalized.counter = s.counter + s.blen.val :=
  (addCounter_some (addCounter_of_lt h)).1

theorem finalized_chain (s : State) :
    s.finalized.chain = compress s.chain (bufZeroFrom s.buf s.blen.val) (countLow (s.counter + s.blen.val))
      (countHigh (s.counter + s.blen.val)) lastBlockFlag s.f1 := rfl

theorem finalized_result (s : State) : s.finalized.result = resultOf s.finalized.chain s.dlen.val s.freeIx := rfl

theorem finalized_out (s : State) : s.finalized.out = s.out := rfl

theorem finalized_dlen (s : State) : s.finalized.dlen = s.dlen := rfl

/-! ### The command -/

theorem exec_digest_of_unconfigured {s : State} (hphase : s.phase = .unconfigured) : exec .digest s = raise .noInstance s := by
  simp [exec, execDigest, hphase]

theorem exec_digest_of_finished {s : State} (hphase : s.phase = .finished) :
    exec .digest s = .next (s.emit (statusCode .ok :: digestBytes s)) := by
  simp [exec, execDigest, hphase]

theorem exec_digest_of_absorbing {s : State} (hphase : s.phase = .absorbing) :
    exec .digest s = andThen (finalize s) fun t => .next (t.emit (statusCode .ok :: digestBytes t)) := by
  simp [exec, execDigest, hphase]

theorem exec_digest_of_lt {s : State} (hphase : s.phase = .absorbing) (h : s.counter + s.blen.val < 2 ^ 64) :
    exec .digest s = .next (s.finalized.emit (statusCode .ok :: digestBytes s.finalized)) := by
  rw [exec_digest_of_absorbing hphase, finalize_of_lt h, andThen_of_next]

/-- DIGEST never writes DLEN. -/
theorem exec_digest_dlen {s t : State} (h : exec .digest s = .next t) : t.dlen = s.dlen := by
  cases exec_effect h with
  | responds _ e bytes n => rfl
  | finalized _ run => rw [State.emit_dlen, (finalize_next run).1]

/-- Settles O33: the phase alone decides. -/
theorem digestWithoutInstance : Obligations.DigestWithoutInstance := fun _ => exec_digest_of_unconfigured

/-- Settles O35: finalization counts the bytes of BUF first. -/
theorem digestOverflowFaults : Obligations.DigestOverflowFaults := by
  intro s hphase h
  rw [exec_digest_of_absorbing hphase, finalize_of_ge h, andThen_of_fault]

theorem chainBytes_getElem_of_lt (h : Vector Word 8) (j : Nat) (hj : j < 32) :
    (chainBytes h)[j] = byteOf (h[j / 4]'(by omega)) (j % 4) := by
  unfold chainBytes
  simp

/-- Settles O34: the state is `State.finalized` with the response. -/
theorem firstDigestFinalizes : Obligations.FirstDigestFinalizes := by
  intro s hphase hroom
  refine ⟨_, exec_digest_of_lt hphase hroom, fun i => ?_, finalized_counter hroom, rfl, rfl, id, fun j hj => ?_, rfl, rfl, rfl, rfl,
    rfl, rfl, rfl, rfl⟩
  · exact bufZeroFrom_getElem s.buf s.blen.val i.val i.isLt
  · rw [State.emit_result, Fin.getElem_fin, finalized_result, resultOf_getElem, if_pos hj, chainBytes_getElem_of_lt, byteOf_toNat]
    rfl

/-- Settles O36: the digest that a first DIGEST emits is the one its state caches. -/
theorem digestIsIdempotent : Obligations.DigestIsIdempotent := by
  refine ⟨fun s => exec_digest_of_finished, fun s t hphase h => ?_⟩
  obtain ⟨hnone, -⟩ | ⟨-, hout⟩ := execDigest_out h
  · simp [hphase] at hnone
  · have hemitted : t.out.drop s.out.length = statusCode .ok :: digestBytes t := by rw [hout, List.drop_left]
    rw [exec_digest_of_finished (digest_phase_of_absorbing hphase h), hemitted]
    rfl

theorem digestBytes_length (s : State) : (digestBytes s).length = s.dlen.val := by
  have := s.dlen.isLt
  simp only [digestBytes, List.length_take, Vector.length_toList]
  omega

/-- Settles O37: an instance's DIGEST emits OK and the digest bytes. -/
theorem digestResponseHasDlenBytes : Obligations.DigestResponseHasDlenBytes := by
  intro s t hphase h
  obtain ⟨hnone, -⟩ | ⟨-, hout⟩ := execDigest_out h
  · exact absurd hnone hphase
  · rw [← exec_digest_dlen h]
    refine ⟨hout, ?_⟩
    rw [hout, List.length_append, List.length_cons, digestBytes_length]
    omega

/-! ### An instance that absorbed no message byte -/

theorem bufZeroFrom_zero (b : Vector Byte 64) : bufZeroFrom b 0 = Vector.replicate 64 0 := by
  apply Vector.ext
  intro i hi
  simp [bufZeroFrom_getElem]

theorem bufZeroFrom_full (b : Vector Byte 64) : bufZeroFrom b 64 = b := by
  apply Vector.ext
  intro i hi
  rw [bufZeroFrom_getElem, if_pos hi]

theorem countLow_eq (n : Nat) : countLow n = BitVec.ofNat 32 n := by
  unfold countLow
  rfl

theorem countHigh_eq (n : Nat) : countHigh n = BitVec.ofNat 32 (n / 2 ^ 32) := by
  unfold countHigh
  rfl

theorem keyBlockLength_nil : (keyBlockLength []).val = 0 := rfl

theorem keyBlockLength_of_ne_nil {key : List Byte} (hkey : key ≠ []) : (keyBlockLength key).val = 64 := by
  rw [keyBlockLength, if_pos (List.length_pos_iff.2 hkey)]
  rfl

theorem startInstance_counter (s : State) (dl : BitVec 8) (key : List Byte) (salt pers : Option (List Byte)) :
    (s.startInstance dl key salt pers).counter = 0 := by
  simp [State.counter, counterValue]

/-- When T is 0 the last compression has T = BLEN. -/
theorem exec_digest_of_counter_zero {s : State} (hphase : s.phase = .absorbing) (hcounter : s.counter = 0) :
    ∃ t, exec .digest s = .next t ∧ t.counter = s.blen.val ∧
      t.chain = compress s.chain (bufZeroFrom s.buf s.blen.val) (countLow s.blen.val) (countHigh s.blen.val) lastBlockFlag s.f1 := by
  have hroom : s.counter + s.blen.val < 2 ^ 64 := by
    have := s.blen_le
    omega
  refine ⟨_, exec_digest_of_lt hphase hroom, ?_, ?_⟩
  · rw [State.emit_counter, finalized_counter hroom, hcounter, Nat.zero_add]
  · rw [State.emit_chain, finalized_chain, hcounter, Nat.zero_add]

/-- Settles O38: CONFIG leaves T at 0 and the key block, if there is a key, as the whole of BUF. -/
theorem emptyMessageHasOneCompression : Obligations.EmptyMessageHasOneCompression := by
  intro s dl key salt pers uf legal
  obtain ⟨u, hu, hcounter, hchain⟩ :=
    exec_digest_of_counter_zero (s := (s.startInstance dl key salt pers).emit [statusCode .ok]) rfl
      (startInstance_counter s dl key salt pers)
  rw [State.emit_blen, State.startInstance_blen] at hcounter hchain
  refine ⟨_, u, execConfig_of_legal legal s, hu, ?_, ?_⟩
  · rintro rfl
    rw [keyBlockLength_nil] at hcounter hchain
    rw [bufZeroFrom_zero, countLow_eq, countHigh_eq] at hchain
    exact ⟨hcounter, hchain⟩
  · intro hkey
    rw [keyBlockLength_of_ne_nil hkey] at hcounter hchain
    rw [bufZeroFrom_full, countLow_eq, countHigh_eq] at hchain
    exact ⟨hcounter, hchain⟩

end Sys2Proof.Machine
end

section
/-!
PROOFS. The engine computes the hash (43_digest.md R203): CONFIG leaves the key block in BUF, the UPDATE commands absorb the message after
it (42_update.md R166, R168, R169), and DIGEST compresses what is held back.
-/

namespace Sys2Proof.Machine

/-! ### Runs -/

theorem execAll_append (is js : List Instr) (s : State) : execAll (is ++ js) s = andThen (execAll is s) (execAll js) := by
  induction is generalizing s with
  | nil => rfl
  | cons i is ih =>
    rw [List.cons_append, execAll, execAll, andThen_assoc]
    exact congrArg _ (funext ih)

theorem execAll_singleton_of_next {i : Instr} {s t : State} (h : exec i s = .next t) : execAll [i] s = .next t := by
  rw [execAll, h, andThen_of_next, execAll]

/-- An UPDATE that completes while absorbing answers OK. -/
theorem exec_update_next_out {s t : State} (hphase : s.phase = .absorbing) {data : List Byte}
    (h : exec (.update .byteSequence data) s = .next t) : t.out = s.out ++ [statusCode .ok] := by
  rcases Nat.lt_or_ge (s.counter + 64 * blocksCompressed s.blen.val data.length) (2 ^ 64) with hlt | hge
  · obtain ⟨u, hu, -, hout⟩ := exec_update_of_lt hphase hlt
    obtain rfl := Host.Outcome.next.inj (h.symm.trans hu)
    exact hout
  · rw [exec_update_of_ge hphase hge] at h
    cases h

/-- Each chunk is answered by OK. -/
theorem execAll_updates_out {s t : State} (hphase : s.phase = .absorbing) {chunks : List (List Byte)}
    (h : execAll (updates chunks) s = .next t) : t.out = s.out ++ List.replicate chunks.length (statusCode .ok) := by
  induction chunks generalizing s with
  | nil =>
    obtain rfl := Host.Outcome.next.inj h
    exact (List.append_nil _).symm
  | cons chunk chunks ih =>
    obtain ⟨u, hu, h⟩ := (andThen_eq_next _ _).1 h
    rw [ih ((exec_update_next hphase hu).phase_eq.trans hphase) h, exec_update_next_out hphase hu, List.append_assoc]
    rfl

/-! ### The bytes that are hashed -/

/-- Zero padding of BUF gives the block of its valid bytes. -/
theorem bufZeroFrom_eq_blockOf (s : State) : bufZeroFrom s.buf s.blen.val = blockOf s.buffered := by
  apply Vector.ext
  intro i hi
  rw [bufZeroFrom_getElem, blockOf_getElem]
  split
  next h => exact (buffered_getD s i h).symm
  next h => rw [List.getD_eq_default _ _ (by rw [buffered_length]; omega)]

theorem blockOf_toList {bytes : List Byte} (hlen : bytes.length ≤ 64) :
    (blockOf bytes).toList = bytes ++ List.replicate (64 - bytes.length) 0 := by
  apply List.ext_getElem
  · rw [Vector.length_toList, List.length_append, List.length_replicate]
    omega
  · intro i hi hi'
    rw [Vector.getElem_toList, blockOf_getElem, List.getElem_append]
    split
    next h => exact List.getD_eq_getElem _ _ h
    next h => rw [List.getElem_replicate, List.getD_eq_default _ _ (Nat.le_of_not_lt h)]

/-- A new instance holds the key block in BUF, if there is a key (40_config.md R111, R116). -/
theorem startInstance_buffered_append (s : State) (dl : BitVec 8) {key : List Byte} (hlen : key.length ≤ 64)
    (salt pers : Option (List Byte)) (message : List Byte) :
    (s.startInstance dl key salt pers).buffered ++ message = absorbedBytes key message := by
  rcases eq_or_ne key [] with rfl | hkey
  · rw [buffered_eq_nil rfl]
    rfl
  · rw [State.buffered, State.startInstance_buf, State.startInstance_blen, keyBlockLength_of_ne_nil hkey,
      List.take_of_length_le (by rw [Vector.length_toList]), blockOf_toList hlen, absorbedBytes, if_neg hkey]

/-- The responses of the state before are no part of what absorbing does. -/
theorem AbsorbsTo.of_emit {s t : State} {bytes data : List Byte} (h : AbsorbsTo (s.emit bytes) data t) : AbsorbsTo s data t :=
  ⟨h.hash, h.frame⟩

/-- T + BLEN counts every absorbed byte (42_update.md R171). -/
theorem AbsorbsTo.counter_add_blen {s t : State} {data : List Byte} (h : AbsorbsTo s data t) :
    t.counter + t.blen.val = s.counter + (s.buffered ++ data).length := by
  have hcounter := h.counter_eq
  have hblen := h.blen_eq
  rw [blocksCompressed_eq s.blen_le] at hcounter hblen
  rw [List.length_append, buffered_length]
  omega

/-! ### The digest -/

theorem resultOf_take (h : Vector Word 8) (len draw : Nat) :
    (resultOf h len draw).toList.take len = (chainBytes h).toList.take len := by
  apply List.ext_getElem
  · simp only [List.length_take, Vector.length_toList]
  · intro i hi hi'
    rw [List.length_take] at hi
    rw [List.getElem_take, List.getElem_take, Vector.getElem_toList, Vector.getElem_toList, resultOf_getElem, if_pos (by omega)]

/-- Finalization caches the first DLEN bytes of the last compression, that of the bytes held back. -/
theorem digestBytes_finalized (s : State) :
    digestBytes s.finalized =
      (chainBytes (compress s.chain (blockOf s.buffered) (countLow (s.counter + s.blen.val)) (countHigh (s.counter + s.blen.val))
        lastBlockFlag s.f1)).toList.take s.dlen.val := by
  rw [digestBytes, finalized_result, finalized_dlen, resultOf_take, finalized_chain, bufZeroFrom_eq_blockOf]

/-- What DIGEST answers after CONFIG and the absorption of a message. -/
theorem digestBytes_finalized_of_absorbsTo {s t : State} {dl : BitVec 8} {key : List Byte} {salt pers : Option (List Byte)}
    {uf : Bool} {message : List Byte} (legal : ConfigLegal dl key salt pers uf)
    (h : AbsorbsTo (s.startInstance dl key salt pers) message t) :
    digestBytes t.finalized = digestOf dl key salt pers message := by
  obtain ⟨-, hdl, hkey, -⟩ := legal
  have hbytes := startInstance_buffered_append s dl (key := key) (by omega) salt pers message
  have htotal : t.counter + t.blen.val = (absorbedBytes key message).length := by
    rw [h.counter_add_blen, hbytes, startInstance_counter, Nat.zero_add]
  have hhash := h.hash
  rw [hbytes, startInstance_counter, State.startInstance_chain] at hhash
  have hf1 : t.f1 = noFlag := by rw [h.frame]; rfl
  have hdlen : t.dlen.val = dl.toNat := by
    rw [h.frame]
    dsimp only
    rw [State.startInstance_dlen, Fin.val_ofNat, Nat.mod_eq_of_lt (by omega)]
  rw [digestBytes_finalized, htotal, hf1, hdlen, digestOf, ← compressAllButLast, hhash]

/-- Chunks and then DIGEST complete when the counter has room for all their bytes, and the chunks absorb their concatenation. -/
theorem execAll_updates_digest_of_lt {s : State} (hphase : s.phase = .absorbing) {chunks : List (List Byte)}
    (h : s.counter + (s.buffered ++ chunks.flatten).length < 2 ^ 64) :
    ∃ t, execAll (updates chunks ++ [.digest]) s = .next (t.finalized.emit (statusCode .ok :: digestBytes t.finalized)) ∧
      AbsorbsTo s chunks.flatten t ∧ t.out = s.out ++ List.replicate chunks.length (statusCode .ok) := by
  have hblocks : s.counter + 64 * blocksCompressed s.blen.val chunks.flatten.length < 2 ^ 64 := by
    rw [List.length_append, buffered_length] at h
    rw [blocksCompressed_eq s.blen_le]
    omega
  obtain ⟨t, ht, habs⟩ := execAll_updates_of_lt hphase hblocks
  have hdigest := exec_digest_of_lt (habs.phase_eq.trans hphase) (habs.counter_add_blen.trans_lt h)
  exact ⟨t, by rw [execAll_append, ht, andThen_of_next, execAll_singleton_of_next hdigest], habs, execAll_updates_out hphase ht⟩

/-- Settles O39: the counter has room for all absorbed bytes, so each command completes and is answered by OK. -/
theorem engineComputesTheHash : Obligations.EngineComputesTheHash := by
  intro s dl key salt pers uf chunks legal hlen
  have hconfig : exec (.config dl key salt pers uf) s = .next ((s.startInstance dl key salt pers).emit [statusCode .ok]) :=
    execConfig_of_legal legal s
  have hroom : (s.startInstance dl key salt pers).counter +
      ((s.startInstance dl key salt pers).buffered ++ chunks.flatten).length < 2 ^ 64 := by
    obtain ⟨-, -, hkey, -⟩ := legal
    rwa [startInstance_counter, Nat.zero_add, startInstance_buffered_append s dl (by omega)]
  obtain ⟨t, hrun, habs, hout⟩ :=
    execAll_updates_digest_of_lt (s := (s.startInstance dl key salt pers).emit [statusCode .ok]) rfl hroom
  refine ⟨_, by rw [List.append_assoc, List.singleton_append, execAll, hconfig, andThen_of_next, hrun], ?_⟩
  rw [State.emit_out, finalized_out, hout, digestBytes_finalized_of_absorbsTo legal habs.of_emit, State.emit_out,
    State.startInstance_out, List.replicate_succ, List.replicate_succ']
  simp [statusCode]

end Sys2Proof.Machine
end

section
/-!
PROOFS. The hex rendering of a digest (43_digest.md R200).
-/

namespace Sys2Proof.Machine

theorem hexDigest_cons (b : Byte) (digest : List Byte) :
    hexDigest (b :: digest) = hexDigit (b.toNat / 16) :: hexDigit (b.toNat % 16) :: hexDigest digest := rfl

theorem hexDigest_length (digest : List Byte) : (hexDigest digest).length = 2 * digest.length := by
  induction digest with
  | nil => rfl
  | cons b digest ih =>
    rw [hexDigest_cons, List.length_cons, List.length_cons, ih, List.length_cons]
    omega

/-- The two characters of byte `j`, the more significant nibble first. -/
theorem hexDigest_getElem? (digest : List Byte) {j : Nat} (hj : j < digest.length) :
    (hexDigest digest)[2 * j]? = some (hexDigit (digest[j].toNat / 16)) ∧
      (hexDigest digest)[2 * j + 1]? = some (hexDigit (digest[j].toNat % 16)) := by
  induction digest generalizing j with
  | nil => cases hj
  | cons b digest ih =>
    cases j with
    | zero => exact ⟨rfl, rfl⟩
    | succ j => exact ih (Nat.lt_of_succ_lt_succ hj)

/-- Settles O51, by induction over the digest. -/
theorem hexDigestRendersEachByte : Obligations.HexDigestRendersEachByte := by
  refine ⟨by decide, fun digest => ⟨hexDigest_length digest, fun j hj => hexDigest_getElem? digest hj⟩⟩

end Sys2Proof.Machine
end

section
/-!
PROOFS. How a command ends (60_exceptions.md R220, R222, R225, R226): the error that is reported when several apply, what an error leaves
as it was, and the one fault of a command.
-/

namespace Sys2Proof.Machine

/-! ### The choice among the errors that apply -/

/-- The errors of an UPDATE of an instance are a list of exactly those of R161 that apply. -/
theorem mem_updateErrors_iff (e : Status) (et : ElementType) (phase : Phase) :
    e ∈ updateErrors et phase ↔ UpdateErrorApplies e et phase := by
  cases e <;> simp [updateErrors, UpdateErrorApplies]

theorem exec_config_of_errors {dl : BitVec 8} {key : List Byte} {salt pers : Option (List Byte)} {uf : Bool} {e : Status}
    {others : List Status} (herrors : configErrors dl key salt pers uf = e :: others) (s : State) :
    exec (.config dl key salt pers uf) s = raiseOneOf e others s := by
  simp only [exec, execConfig, herrors]

/-- The picks from a list of errors are the errors that apply, when the list holds exactly these. -/
theorem exists_pickError_iff_applies {errors : List Status} {applies : Status → Prop} (hmem : ∀ e, e ∈ errors ↔ applies e)
    {first : Status} {others : List Status} (herrors : errors = first :: others) (e : Status) :
    (∃ k, pickError first others k = e) ↔ applies e := by
  rw [exists_pickError_iff, ← herrors, hmem]

/-- Settles O16: each list holds the errors that apply, and a list that is not empty is raised by `raiseOneOf`. -/
theorem everyApplicableErrorCanBePicked : Obligations.EveryApplicableErrorCanBePicked := by
  constructor
  · intro dl key salt pers uf
    have hmem (e : Status) := mem_configErrors_iff e dl key salt pers uf
    refine ⟨hmem, fun first others herrors => ⟨exists_pickError_iff_applies hmem herrors, fun s => ?_⟩⟩
    rw [exec_config_of_errors herrors, raiseOneOf_next]
  · intro et phase
    have hmem (e : Status) := mem_updateErrors_iff e et phase
    refine ⟨hmem, fun first others herrors => ⟨exists_pickError_iff_applies hmem herrors, ?_⟩⟩
    rintro s data rfl hphase
    rw [exec_update_of_errors hphase herrors, raiseOneOf_next]

/-! ### What an error leaves as it was -/

/-- A command that goes on answers OK first, or writes the responses and the model's counter alone. -/
theorem Effect.ok_or_frame {s t : State} {i : Instr} (h : Effect s i t) :
    (∃ bytes, t.out = s.out ++ statusCode .ok :: bytes) ∨ t = { s with out := t.out, freeIx := t.freeIx } := by
  cases h with
  | responds _ e bytes n => exact .inr rfl
  | configured _ => exact .inl ⟨[], rfl⟩
  | absorbed _ _ run =>
    obtain ⟨-, -, -, hout⟩ := absorb_streams run
    exact .inl ⟨[], by rw [State.emit_out, hout]⟩
  | finalized _ run =>
    obtain ⟨-, -, -, hout⟩ := finalize_streams run
    exact .inl ⟨_, by rw [State.emit_out, hout]⟩

/-- A command that goes on answers OK first, or one error status, and then no register has changed (R220). -/
theorem exec_ok_or_error {i : Instr} {s t : State} (h : exec i s = .next t) :
    (∃ bytes, t.out = s.out ++ statusCode .ok :: bytes) ∨
      ∃ (e : Status) (n : Nat), e ≠ .ok ∧ t = { s with out := s.out ++ [statusCode e], freeIx := n } := by
  obtain ⟨hresponse, -⟩ := responseFormat
  obtain hok | hframe := (exec_effect h).ok_or_frame
  · exact .inl hok
  obtain ⟨-, -, hout⟩ | ⟨-, e, -, hout⟩ := hresponse i s t h
  · exact .inl ⟨_, hout⟩
  rcases eq_or_ne e .ok with rfl | he
  · exact .inl ⟨[], hout⟩
  · exact .inr ⟨e, t.freeIx, he, by rw [← hout]; exact hframe⟩

theorem step_of_fetch_command {s : State} {i : Instr} {len : Nat} {rest : List StreamByte}
    (h : fetch s.arrived = .command i len rest) : step s = exec i (s.consume len rest) := by
  rw [step, ← State.arrived, h]

/-- Settles O41: the step runs the command in the state that has consumed its bytes. -/
theorem failedCommandChangesNoRegister : Obligations.FailedCommandChangesNoRegister := by
  refine ⟨fun s t i len rest hfetch h => ?_, fun s why len rest hfetch => step_of_fetch_illegal hfetch⟩
  rw [step_of_fetch_command hfetch] at h
  obtain ⟨hparser, hcmd, hpos, -⟩ := exec_streams h
  exact ⟨hparser, hcmd, hpos, exec_ok_or_error h⟩

/-! ### The one fault of a command -/

/-- A command goes on, or it is a DIGEST or an UPDATE of a byte sequence that overflows the counter while absorbing. -/
theorem exec_next_or_overflow (i : Instr) (s : State) :
    (∃ t, exec i s = .next t) ∨
      (exec i s = .fault .counterOverflow ∧ s.phase = .absorbing ∧
        (i = .digest ∨ ∃ data, data ≠ [] ∧ i = .update .byteSequence data)) := by
  cases i with
  | config dl key salt pers uf =>
    obtain ⟨-, hrun⟩ | ⟨e, others, -, hrun⟩ := execConfig_cases dl key salt pers uf s
    · exact .inl ⟨_, hrun⟩
    · exact .inl ⟨_, hrun.trans (raiseOneOf_next e others s)⟩
  | update et data =>
    obtain ⟨-, hrun⟩ | ⟨-, e, others, -, hrun⟩ | ⟨hphase, rfl, ⟨-, hrun⟩ | ⟨hdata, -⟩⟩ := execUpdate_cases et data s
    · exact .inl ⟨_, hrun⟩
    · exact .inl ⟨_, hrun.trans (raiseOneOf_next e others s)⟩
    · exact .inl ⟨_, hrun⟩
    · rcases Nat.lt_or_ge (s.counter + 64 * blocksCompressed s.blen.val data.length) (2 ^ 64) with hroom | hfull
      · obtain ⟨t, ht, -⟩ := exec_update_of_lt hphase hroom
        exact .inl ⟨t, ht⟩
      · exact .inr ⟨exec_update_of_ge hphase hfull, hphase, .inr ⟨data, hdata, rfl⟩⟩
  | digest =>
    obtain ⟨-, hrun⟩ | ⟨-, hrun⟩ | ⟨hphase, -⟩ := execDigest_cases s
    · exact .inl ⟨_, hrun⟩
    · exact .inl ⟨_, hrun⟩
    · rcases Nat.lt_or_ge (s.counter + s.blen.val) (2 ^ 64) with hroom | hfull
      · exact .inl ⟨_, exec_digest_of_lt hphase hroom⟩
      · exact .inr ⟨digestOverflowFaults s hphase hfull, hphase, .inl rfl⟩

theorem exec_ne_refused (i : Instr) (s : State) (r : Refusal) : exec i s ≠ .refused r := by
  obtain ⟨t, hrun⟩ | ⟨hrun, -⟩ := exec_next_or_overflow i s <;> rw [hrun] <;> exact nofun

theorem step_ne_refused (s : State) (r : Refusal) : step s ≠ .refused r := by
  obtain ⟨-, hrun⟩ | ⟨held, -, hrun⟩ | ⟨why, len, rest, -, hrun⟩ | ⟨i, len, rest, -, hrun⟩ := step_cases s <;> rw [hrun]
  · exact nofun
  · exact nofun
  · exact nofun
  · exact exec_ne_refused i _ r

/-- Settles O44: a command that does not go on overflows the counter, and a step refuses only if its command does. -/
theorem onlyOverflowStopsACommand : Obligations.OnlyOverflowStopsACommand := by
  refine ⟨step_ne_refused, fun i s r h => ?_⟩
  obtain ⟨t, hrun⟩ | ⟨hrun, hphase, hcommand⟩ := exec_next_or_overflow i s
  · rw [hrun] at h
    cases h
  · exact ⟨exec_fault h, hphase, hcommand⟩

end Sys2Proof.Machine
end

section
/-!
PROOFS. What a reset fixes (70_reset_and_hazards.md R250), and an engine that waits for the rest of a command (R254; log 9): the first
step moves the arrived bytes into the parser, and the state it leaves is a fixed point of the step.
-/

namespace Sys2Proof.Machine

/-- Settles O48: both states are written out with these three fields. -/
theorem resetClearsPhaseParserAndResponses : Obligations.ResetClearsPhaseParserAndResponses :=
  ⟨⟨rfl, rfl, rfl⟩, fun _ => ⟨rfl, rfl, rfl⟩⟩

/-- The fetch of one producer's incomplete command waits with all its bytes. -/
theorem fetch_of_lt_frameLength {l : List StreamByte} (hone : oneProducer l = true)
    (hlen : l.length < frameLength (plainBytes l)) : fetch l = .wait (parserHolding l) := by
  obtain ⟨htorn, -⟩ | ⟨-, ⟨-, hf⟩ | ⟨hle, -⟩⟩ := fetch_cases l
  · rw [List.take_of_length_le hlen.le, hone] at htorn
    cases htorn
  · exact hf
  · omega

/-- The engine once its parser has taken every byte that has arrived. -/
def State.waiting (s : State) : State := s.hold (parserHolding s.arrived)

@[simp] theorem State.waiting_arrived (s : State) : s.waiting.arrived = s.arrived := by
  simp [State.waiting, State.arrived]

/-- What waits goes on waiting: nothing has arrived since. -/
@[simp] theorem State.waiting_waiting (s : State) : s.waiting.waiting = s.waiting := by
  rw [State.waiting, State.waiting_arrived]
  rfl

theorem step_of_lt_frameLength {s : State} (hone : oneProducer s.arrived = true)
    (hlen : s.arrived.length < frameLength (plainBytes s.arrived)) : step s = .next s.waiting := by
  rw [step, ← State.arrived, fetch_of_lt_frameLength hone hlen]
  rfl

theorem run_of_step_eq_self {M : Host.Core} {s : M.State} (h : M.step s = .next s) (k : Nat) : M.run k s = .next s := by
  induction k with
  | zero => rfl
  | succ k ih => rw [run_succ_of_next h, ih]

/-- Every run of at least one step on one producer's incomplete command ends in the waiting state. -/
theorem run_succ_of_lt_frameLength {s : State} (hone : oneProducer s.arrived = true)
    (hlen : s.arrived.length < frameLength (plainBytes s.arrived)) (k : Nat) :
    Host.Core.run Sys2Proof.core (k + 1) s = .next s.waiting := by
  have hfixed : step s.waiting = .next s.waiting := by
    rw [step_of_lt_frameLength (by rwa [State.waiting_arrived]) (by rwa [State.waiting_arrived]), State.waiting_waiting]
  have hfirst : step s = .next s.waiting := step_of_lt_frameLength hone hlen
  exact (run_succ_of_next (M := Sys2Proof.core) hfirst).trans (run_of_step_eq_self (M := Sys2Proof.core) hfixed k)

/-- Settles O9: the parser that holds the arrived bytes is that of the waiting state. -/
theorem incompleteCommandWaitsForEver : Obligations.IncompleteCommandWaitsForEver := by
  intro s producer bytes harrived hlen
  refine ⟨parserHolding s.arrived, by rw [parserBytes_parserHolding, harrived], run_succ_of_lt_frameLength ?_ ?_⟩
  · rw [harrived, oneProducer_tagged]
  · rwa [harrived, tagged_length, plainBytes_tagged]

end Sys2Proof.Machine
end
